-- ==== Sys2Proof/Word.lean ====
section
/-! DEFINITION. The words of the HBPU (00_scope.md R6, R8): every register is 32 bits, a file byte and a tree
index are 8 bits, all unsigned. UMODE is here because a command carries it. -/

namespace Sys2Proof

/-- A register value or a command word (`WORD` = 32, R6). -/
abbrev Word := BitVec 32

/-- A byte of a packed file or of the OUT FIFO. -/
abbrev Byte := BitVec 8

/-- An index of the tree RAM (`TREE_NODES` = 256, so 8 bits, R6). -/
abbrev Index := BitVec 8

/-- A byte offset within the register space 0x000..0xFFF (R50). -/
abbrev Offset := BitVec 12

/-- UMODE, the output mode of an unpack session (10_state.md R25). -/
inductive UMode where
  | raw     -- 0: payload bits leave as symbol bytes
  | decode  -- 1: payload bits walk the tree and characters leave
  deriving DecidableEq, Repr

end Sys2Proof
end

