-- ==== Sys2Proof/Config.lean ====
section
/-! DEFINITION. The parameters of an HBPU (00_scope.md R6). The fixed ones are constants; the two that are OPEN and
that the transaction level can see, HBPU_BASE and OUT_DEPTH, are the fields of `Config`, which State carries and no
step changes, so that a statement over all states is a statement over all their values (log 3). BUS_PROTOCOL is below
this level (log 6). TREE_INIT is no parameter: reading it faults (log 4). -/

namespace Sys2Proof

/-- `TREE_NODES`: entries of the tree RAM. -/
def treeNodes : Nat := 256

/-- `MAX_PUSH`: the most bits one PACK_BITS pushes. -/
def maxPush : Nat := 32

/-- The OPEN parameters of R6. -/
structure Config where
  /-- `HBPU_BASE`: bus address of register offset 0x000. -/
  hbpuBase : Nat
  /-- `OUT_DEPTH`: capacity in bytes of the OUT FIFO. -/
  outDepth : Nat
  deriving DecidableEq, Repr

/-- The range R6 allows: 8 ≤ OUT_DEPTH ≤ 255. -/
abbrev Config.legal (c : Config) : Prop := 8 ≤ c.outDepth ∧ c.outDepth ≤ 255

/-- The parameters the reset state is written with: OUT_DEPTH = 16, "the spec's default" (R6); HBPU_BASE = 0, a
DESIGN CHOICE, since the spec gives it no default (log 3). -/
def Config.default : Config := { hbpuBase := 0, outDepth := 16 }

end Sys2Proof
end

