-- ==== Sys2Proof/Syntax.lean ====
section
/-! DEFINITION. The instructions of the HBPU: one constructor per row of spec/opcode_table.json, the thirteen
commands (30_encoding.md R82) and the twenty-two register accesses (30_encoding.md R88, 40_host_access.md). -/

namespace Sys2Proof

/-- An instruction: a command, or a register access of the host. A write carries its data word, also where the
register ignores it. -/
inductive Instr where
  -- commands, words written to CMD (R82)
  | nop                                     -- R122
  | softReset                               -- R123
  | abort                                   -- R124
  | packStart                               -- R144, L in ARG
  | packBits (n : BitVec 6)                 -- R145, N = w[5:0], bits in ARG
  | packSym (sym : Byte)                    -- R146, SYM = w[7:0]
  | packEnd                                 -- R147
  | unpackStart (m : UMode)                 -- R177, M = w[0]
  | unpackByte (b : Byte)                   -- R178, B = w[7:0]
  | unpackEnd                               -- R179
  | treeWrite (idx : Index)                 -- R125, IDX = w[7:0], node word in ARG
  | treeRead (idx : Index)                  -- R126, IDX = w[7:0]
  | setRoot (idx : Index)                   -- R127, IDX = w[7:0]
  -- register reads (40_host_access.md)
  | rdId                                    -- R101
  | rdCtrl                                  -- R102
  | rdStatus                                -- R104
  | rdArg                                   -- R106
  | rdCmd                                   -- R108
  | rdOut                                   -- R110
  | rdRoot                                  -- R111
  | rdRemain                                -- R112
  | rdWalk                                  -- R113
  | rdPacc                                  -- R114
  | rdUnmapped (offset : Offset)            -- R115
  -- register writes (40_host_access.md)
  | wrCtrl (data : Word)                    -- R103
  | wrArg (data : Word)                     -- R107
  | wrCmd (data : Word)                     -- R109, the data is a command word
  | wrId (data : Word)                      -- R105
  | wrStatus (data : Word)                  -- R105
  | wrOut (data : Word)                     -- R105
  | wrRoot (data : Word)                    -- R105
  | wrRemain (data : Word)                  -- R105
  | wrWalk (data : Word)                    -- R105
  | wrPacc (data : Word)                    -- R105
  | wrUnmapped (offset : Offset) (data : Word)  -- R105
  deriving DecidableEq, Repr

end Sys2Proof
end

