-- ==== Sys2Proof/WellFormed.lean ====
section
/-! DEFINITION. Which terms of `Instr` are instructions of the HBPU. Every operand of a command has exactly its
field's width, so the only check is on the two accesses to unmapped offsets: the offset is word-aligned
(20_memory.md R52) and lies in 0x028..0xFFC (20_memory.md R51). PACK_BITS with N = 0 or N > 32 and PACK_SYM with any
SYM are legal encodings (30_encoding.md R83), so they are well-formed. -/

namespace Sys2Proof

/-- An offset that names no register: word-aligned, 0x028..0xFFC (R51). -/
def Offset.unmapped (o : Offset) : Bool := 0x028 ≤ o.toNat && o.toNat % 4 == 0

/-- The well-formedness check. -/
def Instr.wellFormed : Instr → Bool
  | .rdUnmapped o => Offset.unmapped o
  | .wrUnmapped o _ => Offset.unmapped o
  | .nop | .softReset | .abort | .packStart | .packBits _ | .packSym _ | .packEnd
  | .unpackStart _ | .unpackByte _ | .unpackEnd | .treeWrite _ | .treeRead _ | .setRoot _
  | .rdId | .rdCtrl | .rdStatus | .rdArg | .rdCmd | .rdOut | .rdRoot | .rdRemain | .rdWalk | .rdPacc
  | .wrCtrl _ | .wrArg _ | .wrCmd _ | .wrId _ | .wrStatus _ | .wrOut _ | .wrRoot _ | .wrRemain _
  | .wrWalk _ | .wrPacc _ => true

end Sys2Proof
end

