-- ==== Sys2Proof/Decode.lean ====
section
/-! DEFINITION. Decoding and encoding. An instruction's code is a command word or a register access (30_encoding.md,
head; R80, R88). `decode` is total and rejects by name; `encode` is written from the same tables of the spec. -/

namespace Sys2Proof

/-- The code of an instruction: the two kinds 30_encoding.md names. -/
inductive Code where
  /-- A command word (R80). -/
  | cmd (w : Word)
  /-- A 32-bit read at a byte offset of the register space. -/
  | rd (offset : Offset)
  /-- A 32-bit write at a byte offset of the register space. -/
  | wr (offset : Offset) (data : Word)
  deriving DecidableEq, Repr

/-- Why a code is no instruction. -/
inductive DecodeError where
  /-- OP is 0xD, 0xE or 0xF (R84). -/
  | reservedOpcode
  /-- A reserved bit of a command word is 1 (R83). -/
  | reservedBit
  /-- A register offset that is not word-aligned (20_memory.md R52). -/
  | misaligned
  deriving DecidableEq, Repr

/-! ## The access descriptor (R88) -/

/-- `D = W << 12 | offset`. A command word travels in a write to CMD. -/
def Code.descriptor : Code → BitVec 13
  | .cmd _ => 0x1010
  | .rd o => o.setWidth 13
  | .wr o _ => 0x1000 ||| o.setWidth 13

/-- The access a descriptor stands for, with its data word. -/
def Code.ofDescriptor (d : BitVec 13) (data : Word) : Code :=
  if d.getLsbD 12 then .wr (d.setWidth 12) data else .rd (d.setWidth 12)

/-! ## Commands (R80 to R86) -/

/-- OP, bits [31:28] of a command word (R80). -/
def opcode (w : Word) : BitVec 4 := w.extractLsb' 28 4

/-- UMODE from the M field, w[0] (R81). -/
def UMode.ofBit (b : Bool) : UMode := if b then .decode else .raw

/-- The M field's bit (R81). -/
def UMode.bit : UMode → Bool
  | .raw => false
  | .decode => true

/-- The reserved-bit check of R86: with `mask` the row's reserved mask of R82. -/
def checkReserved (w mask : Word) (i : Instr) : Except DecodeError Instr :=
  if w &&& mask = 0 then .ok i else .error .reservedBit

/-- The decode of a command word (R82, R86): first the opcode, then the reserved bits. -/
def decodeCmd (w : Word) : Except DecodeError Instr :=
  match (opcode w).toNat with
  | 0x0 => checkReserved w 0x0FFFFFFF .nop
  | 0x1 => checkReserved w 0x0FFFFFFF .softReset
  | 0x2 => checkReserved w 0x0FFFFFFF .abort
  | 0x3 => checkReserved w 0x0FFFFFFF .packStart
  | 0x4 => checkReserved w 0x0FFFFFC0 (.packBits (w.setWidth 6))
  | 0x5 => checkReserved w 0x0FFFFF00 (.packSym (w.setWidth 8))
  | 0x6 => checkReserved w 0x0FFFFFFF .packEnd
  | 0x7 => checkReserved w 0x0FFFFFFE (.unpackStart (UMode.ofBit (w.getLsbD 0)))
  | 0x8 => checkReserved w 0x0FFFFF00 (.unpackByte (w.setWidth 8))
  | 0x9 => checkReserved w 0x0FFFFFFF .unpackEnd
  | 0xA => checkReserved w 0x0FFFFF00 (.treeWrite (w.setWidth 8))
  | 0xB => checkReserved w 0x0FFFFF00 (.treeRead (w.setWidth 8))
  | 0xC => checkReserved w 0x0FFFFF00 (.setRoot (w.setWidth 8))
  | _ => .error .reservedOpcode

/-! ## Register accesses (R88, 20_memory.md R51, R52) -/

/-- The default row of a read: an unmapped offset, if it is word-aligned (R115, R52). -/
def decodeUnmappedRead (o : Offset) : Except DecodeError Instr :=
  if o.toNat % 4 = 0 then .ok (.rdUnmapped o) else .error .misaligned

/-- The default row of a write (R105, R52). -/
def decodeUnmappedWrite (o : Offset) (d : Word) : Except DecodeError Instr :=
  if o.toNat % 4 = 0 then .ok (.wrUnmapped o d) else .error .misaligned

/-- The register read at an offset. -/
def decodeRead (o : Offset) : Except DecodeError Instr :=
  match o.toNat with
  | 0x000 => .ok .rdId
  | 0x004 => .ok .rdCtrl
  | 0x008 => .ok .rdStatus
  | 0x00C => .ok .rdArg
  | 0x010 => .ok .rdCmd
  | 0x014 => .ok .rdOut
  | 0x018 => .ok .rdRoot
  | 0x01C => .ok .rdRemain
  | 0x020 => .ok .rdWalk
  | 0x024 => .ok .rdPacc
  | _ => decodeUnmappedRead o

/-- The register write at an offset, with its data word. -/
def decodeWrite (o : Offset) (d : Word) : Except DecodeError Instr :=
  match o.toNat with
  | 0x000 => .ok (.wrId d)
  | 0x004 => .ok (.wrCtrl d)
  | 0x008 => .ok (.wrStatus d)
  | 0x00C => .ok (.wrArg d)
  | 0x010 => .ok (.wrCmd d)
  | 0x014 => .ok (.wrOut d)
  | 0x018 => .ok (.wrRoot d)
  | 0x01C => .ok (.wrRemain d)
  | 0x020 => .ok (.wrWalk d)
  | 0x024 => .ok (.wrPacc d)
  | _ => decodeUnmappedWrite o d

/-- The instruction of a code, or why it is none. -/
def decode : Code → Except DecodeError Instr
  | .cmd w => decodeCmd w
  | .rd o => decodeRead o
  | .wr o d => decodeWrite o d

/-! ## Encoding -/

/-- The code of an instruction (R81, R82, R88 and the `Encoding` entries of files 40 to 43). -/
def encode : Instr → Code
  | .nop => .cmd 0x00000000
  | .softReset => .cmd 0x10000000
  | .abort => .cmd 0x20000000
  | .packStart => .cmd 0x30000000
  | .packBits n => .cmd (0x40000000 ||| n.setWidth 32)
  | .packSym y => .cmd (0x50000000 ||| y.setWidth 32)
  | .packEnd => .cmd 0x60000000
  | .unpackStart m => .cmd (0x70000000 ||| (BitVec.ofBool m.bit).setWidth 32)
  | .unpackByte b => .cmd (0x80000000 ||| b.setWidth 32)
  | .unpackEnd => .cmd 0x90000000
  | .treeWrite i => .cmd (0xA0000000 ||| i.setWidth 32)
  | .treeRead i => .cmd (0xB0000000 ||| i.setWidth 32)
  | .setRoot i => .cmd (0xC0000000 ||| i.setWidth 32)
  | .rdId => .rd 0x000
  | .rdCtrl => .rd 0x004
  | .rdStatus => .rd 0x008
  | .rdArg => .rd 0x00C
  | .rdCmd => .rd 0x010
  | .rdOut => .rd 0x014
  | .rdRoot => .rd 0x018
  | .rdRemain => .rd 0x01C
  | .rdWalk => .rd 0x020
  | .rdPacc => .rd 0x024
  | .rdUnmapped o => .rd o
  | .wrCtrl d => .wr 0x004 d
  | .wrArg d => .wr 0x00C d
  | .wrCmd d => .wr 0x010 d
  | .wrId d => .wr 0x000 d
  | .wrStatus d => .wr 0x008 d
  | .wrOut d => .wr 0x014 d
  | .wrRoot d => .wr 0x018 d
  | .wrRemain d => .wr 0x01C d
  | .wrWalk d => .wr 0x020 d
  | .wrPacc d => .wr 0x024 d
  | .wrUnmapped o d => .wr o d

/-! ## The opcode table's numbering -/

/-- The code whose bits are `w` as spec/opcode_table.json numbers them. A command row has 32 bits: the word written to
CMD. An access row has the 13 bits of its descriptor D, 16 in whole bytes, and no bits for the data word, which is
then 0. Bits 13 and up of an access word belong to no descriptor (log 8). -/
def tableCode (nbits w : Nat) : Option Code :=
  if nbits = 32 then
    if w < 2 ^ 32 then some (.cmd (BitVec.ofNat 32 w)) else none
  else if w < 2 ^ 13 then some (Code.ofDescriptor (BitVec.ofNat 13 w) 0) else none

/-- The instruction the decoder reads from a word of spec/opcode_table.json. -/
def decodeTableWord (nbits w : Nat) : Option Instr :=
  match tableCode nbits w with
  | none => none
  | some c => (decode c).toOption

end Sys2Proof
end

