-- ==== Sys2Proof/Machine/State.lean ====
section
/-! DEFINITION. The machine's state (10_state.md), its faults and refusals, and the state after reset
(70_reset_and_hazards.md R240). `Hbpu` has one field per row of the table of 10_state.md R20 and no other; `State` adds
what is the model's own: the parameters, the host's pending accesses and the words it has received. -/

namespace Sys2Proof.Machine

/-- PADMODE (10_state.md R22). -/
inductive PadMode where
  | strict  -- 0
  | compat  -- 1
  deriving DecidableEq, Repr

/-- MODE (10_state.md R24). -/
inductive Mode where
  | idle    -- 0
  | pack    -- 1
  | unpack  -- 2
  | error   -- 3
  deriving DecidableEq, Repr

/-- The error codes of STATUS.ERR (60_exceptions.md R211). The codes 12..15 are never produced and have no
constructor (log 9). -/
inductive ErrCode where
  | none              -- 0
  | illegalCmd        -- 1, rejection
  | badMode           -- 2, rejection
  | badCount          -- 3, rejection
  | outFull           -- 4, rejection
  | notDrained        -- 5, rejection
  | invalidBitString  -- 6, fatal
  | lengthOverrun     -- 7, fatal
  | lengthShort       -- 8, fatal
  | malformedPadding  -- 9, fatal
  | emptyInput        -- 10, fatal
  | treeFault         -- 11, fatal
  deriving DecidableEq, Repr

/-- The tree RAM (10_state.md R36): the entries written since power-on, as (index, node word) pairs. Its canonical form
is `Memory.wf` of Machine/Ops.lean: indices strictly rising, and below 256. An entry that is not listed holds TREE_INIT
(log 4). -/
abbrev Memory := List (Nat × Word)

/-- The HBPU: one field per row of the table of 10_state.md R20. -/
structure Hbpu where
  padmode : PadMode       -- R22
  arg     : Word          -- R23
  mode    : Mode          -- R24
  umode   : UMode         -- R25
  first   : Bool          -- R32
  done    : Bool          -- R27
  trunc   : Bool          -- R28
  malpad  : Bool          -- R29
  inCode  : Bool          -- PARTIAL, R35
  err     : ErrCode       -- R26
  acc     : BitVec 7      -- R30
  accn    : BitVec 3      -- R30
  remain  : Word          -- R31
  root    : Index         -- R33
  walk    : Index         -- R34
  tree    : Memory        -- R36
  out     : List Byte     -- R37, head first
  deriving DecidableEq, Repr

/-- The width of a bus access. Only `word` is defined (20_memory.md R52). -/
inductive AccessSize where
  | byte
  | half
  | word
  deriving DecidableEq, Repr

/-- One thing the outside does to the HBPU (00_scope.md R12, 20_memory.md R68): a bus access at a bus address, or
the reset input. -/
inductive HostEvent where
  | read (size : AccessSize) (addr : Nat)
  | write (size : AccessSize) (addr : Nat) (data : Word)
  | reset
  deriving DecidableEq, Repr

/-- The machine: the HBPU, and beside it the model's own fields (logs 1, 2, 3). -/
structure State where
  cfg     : Config          -- the OPEN parameters (00_scope.md R6); no step changes them
  hbpu    : Hbpu
  bus     : List HostEvent  -- what the host has still to do, oldest first
  replies : List Word       -- the words register reads have returned, oldest first
  deriving DecidableEq, Repr

/-- Where the machine stops. -/
inductive Fault where
  /-- Raised by TREE_READ and by UNPACK_BYTE's walk: a read of a tree RAM entry that no TREE_WRITE has written since
  power-on (10_state.md R36, 41_control_tree.md R126, 93_implementation_defined.md). Safe: the hardware returns some
  stable value and the model claims nothing of it (log 4). -/
  | treeUnwritten (index : Index)
  deriving DecidableEq, Repr

/-- Where the model has no step. -/
inductive Refusal where
  /-- Raised by an arm of `exec` for an instruction that has no meaning yet. Safe. -/
  | notModelled (mnemonic : String)
  /-- Raised by `step`: a byte or halfword access (20_memory.md R52). Safe (log 5). -/
  | subWord
  /-- Raised by `step`: an access outside bus addresses HBPU_BASE + 0x000..0xFFF (20_memory.md R50,
  93_implementation_defined.md). Safe (log 5). -/
  | outsideBlock
  /-- Raised by `step`: the access decodes to no instruction, because it is misaligned (20_memory.md R52). Safe
  (log 5). -/
  | undecodable (e : DecodeError)
  deriving DecidableEq, Repr

/-- The outcome of an instruction or a step. -/
abbrev Result := Host.Outcome State Fault Refusal

/-- Every state element at its reset value (70_reset_and_hazards.md R240). TREE holds TREE_INIT: no entry is listed. -/
def Hbpu.reset : Hbpu :=
  { padmode := .strict, arg := 0, mode := .idle, umode := .raw, first := false, done := false, trunc := false,
    malpad := false, inCode := false, err := .none, acc := 0, accn := 0, remain := 0, root := 0, walk := 0,
    tree := [], out := [] }

/-- The state after reset of an HBPU with parameters `c`, the host having asked for nothing yet. -/
def State.resetWith (c : Config) : State := { cfg := c, hbpu := Hbpu.reset, bus := [], replies := [] }

/-- The state after reset, with the parameters of `Config.default` (log 3). -/
def State.reset : State := State.resetWith Config.default

end Sys2Proof.Machine
end

