-- ==== Sys2Proof/Machine/Operands.lean ====
section
/-! DEFINITION. Operand forms: bits of a word in logical order, the payload bits of a file byte, the padding length,
the symbol of PACK_SYM, the fields of a tree node word, and the words the registers read as. -/

namespace Sys2Proof.Machine

/-! ## Bit strings (00_scope.md R9) -/

/-- Bits `v[k−1], …, v[0]`, highest first: the order in which a bit string is read from a word (R9, 42_pack.md R145). -/
def bitsBelow {w : Nat} (v : BitVec w) : Nat → List Bool
  | 0 => []
  | k + 1 => v.getLsbD k :: bitsBelow v k

/-- `bits8(B)`: the eight bits of a byte, bit 7 first (R9, 43_unpack_decode.md R173). -/
def bits8 (b : Byte) : List Bool := bitsBelow b 8

/-- The index of the highest 1 among bits `k−1 .. 0`, and 0 if there is none. -/
def highestOneBelow (b : Byte) : Nat → Nat
  | 0 => 0
  | k + 1 => if b.getLsbD k then k else highestOneBelow b k

/-- `h`, the index of the highest 1 bit of a byte that is not 0x00 (43_unpack_decode.md R171). -/
def highestOne (b : Byte) : Nat := highestOneBelow b 8

/-- ByteBits (43_unpack_decode.md R174): the payload bits of a byte and whether it is a dropped first byte; `none` is
the failure MALFORMED_PADDING. -/
def byteBits (first : Bool) (pad : PadMode) (b : Byte) : Option (List Bool × Bool) :=
  if first then
    if b = 0 then
      match pad with
      | .strict => none
      | .compat => some ([], true)
    else some (bitsBelow b (highestOne b), false)
  else some (bits8 b, false)

/-- The symbol byte of a payload bit, 0x30 + b (43_unpack_decode.md R176). -/
def symbolByte (b : Bool) : Byte := if b then 0x31 else 0x30

/-- The payload bit of a symbol byte; `none` for an invalid symbol (42_pack.md R146). -/
def symbolBit (y : Byte) : Option Bool :=
  if y = 0x30 then some false else if y = 0x31 then some true else none

/-! ## Padding (42_pack.md R141) -/

/-- `p = 8 − (L mod 8)`. -/
def padLength (len : Nat) : Nat := 8 - len % 8

/-! ## Node words (20_memory.md R60, R61) -/

/-- LEAF, `w[31]`. -/
def nodeIsLeaf (w : Word) : Bool := w.getLsbD 31

/-- `zext_8(CHAR)` of a leaf, CHAR = `w[6:0]` (R60, 43_unpack_decode.md R175). -/
def nodeChar (w : Word) : Byte := (w.extractLsb' 0 7).setWidth 8

/-- LEFT, `w[7:0]`. -/
def nodeLeft (w : Word) : Index := w.extractLsb' 0 8

/-- RIGHT, `w[15:8]`. -/
def nodeRight (w : Word) : Index := w.extractLsb' 8 8

/-- The child a payload bit descends to: '0' left, '1' right (43_unpack_decode.md R175). -/
def nodeChild (w : Word) (b : Bool) : Index := if b then nodeRight w else nodeLeft w

/-- `canon(w)`, the word TREE_WRITE stores (R61). -/
def canon (w : Word) : Word := if nodeIsLeaf w then w &&& 0x8000007F else w &&& 0x0000FFFF

/-! ## What the registers read as (20_memory.md R51) -/

/-- ID, "HBPU" in ASCII (10_state.md R40). -/
def idWord : Word := 0x48425055

/-- CTRL bit 0 (10_state.md R22). -/
def PadMode.bit : PadMode → Bool
  | .strict => false
  | .compat => true

/-- PADMODE from bit 0 of the word written to CTRL (40_host_access.md R103). -/
def PadMode.ofBit (b : Bool) : PadMode := if b then .compat else .strict

/-- CTRL reads as `zext_32(PADMODE)` (40_host_access.md R102). -/
def ctrlWord (h : Hbpu) : Word := (BitVec.ofBool h.padmode.bit).setWidth 32

/-- PACC reads as `zext_32(ACCN) << 8 | zext_32(ACC)` (10_state.md R39). -/
def paccWord (h : Hbpu) : Word := (h.accn.setWidth 32 <<< 8) ||| h.acc.setWidth 32

end Sys2Proof.Machine
end

