-- ==== Sys2Proof/Machine/Flags.lean ====
section
/-! DEFINITION. Flags and codes: the encodings of MODE, UMODE and ERR, the STATUS word (10_state.md R38), which
error codes are fatal (60_exceptions.md R211), and the mode legality of every command (30_encoding.md R87). -/

namespace Sys2Proof.Machine

/-- MODE's two bits (10_state.md R24). -/
def Mode.code : Mode → BitVec 2
  | .idle => 0
  | .pack => 1
  | .unpack => 2
  | .error => 3

/-- ERR's four bits (60_exceptions.md R211). -/
def ErrCode.code : ErrCode → BitVec 4
  | .none => 0
  | .illegalCmd => 1
  | .badMode => 2
  | .badCount => 3
  | .outFull => 4
  | .notDrained => 5
  | .invalidBitString => 6
  | .lengthOverrun => 7
  | .lengthShort => 8
  | .malformedPadding => 9
  | .emptyInput => 10
  | .treeFault => 11

/-- Whether a code's kind is "fatal" in the table of R211. -/
def ErrCode.fatal : ErrCode → Bool
  | .none | .illegalCmd | .badMode | .badCount | .outFull | .notDrained => false
  | .invalidBitString | .lengthOverrun | .lengthShort | .malformedPadding | .emptyInput | .treeFault => true

/-- A one-bit field at bit `i` of a 32-bit word. -/
def flagAt (b : Bool) (i : Nat) : Word := (BitVec.ofBool b).setWidth 32 <<< i

/-- STATUS (10_state.md R38, 40_host_access.md R104). OUTCNT is 8 bits wide (92_eei_decisions.md D39), so bits
[31:24] read 0 in every state (log 10). -/
def statusWord (h : Hbpu) : Word :=
  ((BitVec.ofNat 8 h.out.length).setWidth 32 <<< 16) ||| (h.err.code.setWidth 32 <<< 8)
    ||| flagAt h.inCode 7 ||| flagAt h.malpad 6 ||| flagAt h.trunc 5 ||| flagAt h.done 4
    ||| flagAt h.first 3 ||| flagAt h.umode.bit 2 ||| h.mode.code.setWidth 32

/-- The table of R87: whether an instruction is accepted in a mode. Every register access is legal in every mode
(20_memory.md R66); the command a write to CMD carries is checked when it runs. -/
def legalIn (i : Instr) (m : Mode) : Bool :=
  match i with
  | .nop | .softReset | .abort | .treeRead _ => true
  | .packStart | .unpackStart _ | .treeWrite _ | .setRoot _ => m == .idle
  | .packBits _ | .packSym _ | .packEnd => m == .pack
  | .unpackByte _ | .unpackEnd => m == .unpack
  | .rdId | .rdCtrl | .rdStatus | .rdArg | .rdCmd | .rdOut | .rdRoot | .rdRemain | .rdWalk | .rdPacc | .rdUnmapped _
  | .wrCtrl _ | .wrArg _ | .wrCmd _ | .wrId _ | .wrStatus _ | .wrOut _ | .wrRoot _ | .wrRemain _ | .wrWalk _
  | .wrPacc _ | .wrUnmapped _ _ => true

end Sys2Proof.Machine
end

