-- ==== Sys2Proof/Machine/Ops.lean ====
section
/-! DEFINITION. The operations the meanings share: the tree RAM, the error entries `reject` and `fail` and the return
from them `clearSession`, the answers of a read and of a command, PushBit and WalkBit. -/

namespace Sys2Proof.Machine

/-! ## The tree RAM (10_state.md R36, 20_memory.md R62) -/

/-- The canonical form of a tree RAM: indices strictly rising, each below `treeNodes`. -/
def Memory.wf : Memory → Bool
  | [] => true
  | [(k, _)] => decide (k < treeNodes)
  | (k, _) :: (k', v') :: m => decide (k < k') && Memory.wf ((k', v') :: m)

/-- What an entry that is not listed reads as: TREE_INIT, of which the model claims nothing (R36, log 4). -/
def Memory.unlisted : Option Word := none

/-- The last word stored at a key, or `Memory.unlisted`. -/
def Memory.find : Memory → Nat → Option Word
  | [], _ => Memory.unlisted
  | (k, v) :: m, n => if k = n then some v else Memory.find m n

/-- Store a word at a key, keeping the keys strictly rising. -/
def Memory.store : Memory → Nat → Word → Memory
  | [], n, v => [(n, v)]
  | (k, u) :: m, n, v =>
    if n < k then (n, v) :: (k, u) :: m
    else if n = k then (n, v) :: m
    else (k, u) :: Memory.store m n v

/-- `TREE[i]` as read by TREE_READ and the walk (R62). -/
def Memory.read (m : Memory) (i : Index) : Option Word := Memory.find m i.toNat

/-- `TREE[i] <- v`. -/
def Memory.write (m : Memory) (i : Index) (v : Word) : Memory := Memory.store m i.toNat v

/-! ## Errors (60_exceptions.md R214, R215) and the return from them (R218) -/

/-- `reject(code)`: ERR keeps the first rejection; nothing else changes (R214). -/
def Hbpu.reject (h : Hbpu) (c : ErrCode) : Hbpu := if h.err = .none then { h with err := c } else h

/-- `fail(code)`, the entry into the ERROR state: ERR is always written, MODE = ERROR, OUT is emptied (R215). -/
def Hbpu.fail (h : Hbpu) (c : ErrCode) : Hbpu := { h with err := c, mode := .error, out := [] }

/-- ClearSession (41_control_tree.md R121), the way back to IDLE for ABORT, SOFT_RESET and reset (R218). -/
def Hbpu.clearSession (h : Hbpu) : Hbpu :=
  { h with
    mode := .idle, umode := .raw, first := false, inCode := false
    done := false, trunc := false, malpad := false, err := .none
    acc := 0, accn := 0, remain := 0
    out := []
    walk := h.root }

/-! ## Answers -/

/-- The instruction completes with the HBPU in state `h`. -/
def commit (s : State) (h : Hbpu) : Result := .next { s with hbpu := h }

/-- The command is rejected (60_exceptions.md R214). -/
def rejected (s : State) (c : ErrCode) : Result := commit s (s.hbpu.reject c)

/-- The command ends in a fatal error (60_exceptions.md R215). -/
def failed (s : State) (c : ErrCode) : Result := commit s (s.hbpu.fail c)

/-- A register read returns `w` to the host and changes nothing of the HBPU (40_host_access.md R100). -/
def reply (s : State) (w : Word) : Result := .next { s with replies := s.replies ++ [w] }

/-- The mode check every command makes before its own checks (30_encoding.md R86, R87). -/
def requireMode (i : Instr) (s : State) (body : Result) : Result :=
  if legalIn i s.hbpu.mode then body else rejected s .badMode

/-- Free places of the OUT FIFO, `OUT_DEPTH − |OUT|`. -/
def State.outRoom (s : State) : Nat := s.cfg.outDepth - s.hbpu.out.length

/-! ## PushBit (42_pack.md R143) -/

/-- PushBit(b): append one payload bit; a full byte leaves for OUT. -/
def Hbpu.pushBit (h : Hbpu) (b : Bool) : Hbpu :=
  let a : BitVec 8 := (h.acc.setWidth 8 <<< 1) ||| (BitVec.ofBool b).setWidth 8
  let n := h.accn.toNat + 1
  if n = 8 then { h with remain := h.remain - 1, out := h.out ++ [a], acc := 0, accn := 0 }
  else { h with remain := h.remain - 1, acc := a.setWidth 7, accn := BitVec.ofNat 3 n }

/-- PushBit for each bit of a string, first bit first. -/
def Hbpu.pushBits (h : Hbpu) : List Bool → Hbpu
  | [] => h
  | b :: bs => (h.pushBit b).pushBits bs

/-- The bytes that `n` more bits complete: `floor((ACCN + n) / 8)` (42_pack.md R145). -/
def Hbpu.bytesMade (h : Hbpu) (n : Nat) : Nat := (h.accn.toNat + n) / 8

/-! ## WalkBit (43_unpack_decode.md R175) -/

/-- The local copies of WalkBit: WALK, PARTIAL and the output list. -/
structure Walk where
  node   : Index
  inCode : Bool
  out    : List Byte
  deriving DecidableEq, Repr

/-- Why a walk stops. -/
inductive WalkStop where
  /-- The walk stands at a leaf and cannot descend: TREE_FAULT (R175, R182). -/
  | atLeaf
  /-- It reads an entry no TREE_WRITE has written (10_state.md R36). -/
  | unwritten (i : Index)
  deriving DecidableEq, Repr

/-- WalkBit(b) over the tree RAM `m` with root `root` (R175). -/
def walkBit (m : Memory) (root : Index) (b : Bool) (x : Walk) : Except WalkStop Walk :=
  match m.read x.node with
  | none => .error (.unwritten x.node)
  | some n =>
    if nodeIsLeaf n then .error .atLeaf
    else
      match m.read (nodeChild n b) with
      | none => .error (.unwritten (nodeChild n b))
      | some c =>
        if nodeIsLeaf c then .ok { node := root, inCode := false, out := x.out ++ [nodeChar c] }
        else .ok { x with node := nodeChild n b, inCode := true }

/-- WalkBit for each bit of a string, first bit first. -/
def walkBits (m : Memory) (root : Index) : List Bool → Walk → Except WalkStop Walk
  | [], x => .ok x
  | b :: bs, x =>
    match walkBit m root b x with
    | .error e => .error e
    | .ok y => walkBits m root bs y

/-- What the payload bits of one byte make, before anything is committed (43_unpack_decode.md R178): symbol bytes in
RAW mode, WALK and PARTIAL staying; a walk in DECODE mode. -/
def Hbpu.unpackBits (h : Hbpu) (bits : List Bool) : Except WalkStop Walk :=
  match h.umode with
  | .raw => .ok { node := h.walk, inCode := h.inCode, out := bits.map symbolByte }
  | .decode => walkBits h.tree h.root bits { node := h.walk, inCode := h.inCode, out := [] }

end Sys2Proof.Machine
end

