-- ==== Sys2Proof/Machine/Bus.lean ====
section
/-! DEFINITION. The bus side: which instruction code a host event carries (20_memory.md R50, R52), the reset input
(70_reset_and_hazards.md R240), and the event that carries a word of the opcode table. -/

namespace Sys2Proof.Machine

/-- The register offset of a bus access: 32 bits wide, at HBPU_BASE + 0x000..0xFFF (R50, R52). Other accesses are
refused (log 5). -/
def busOffset (c : Config) (size : AccessSize) (addr : Nat) : Except Refusal Offset :=
  match size with
  | .byte => .error .subWord
  | .half => .error .subWord
  | .word =>
    if c.hbpuBase ≤ addr ∧ addr < c.hbpuBase + 0x1000 then .ok (BitVec.ofNat 12 (addr - c.hbpuBase))
    else .error .outsideBlock

/-- What the next event asks for. -/
inductive Fetched where
  | code (c : Code)
  | reset
  | refused (r : Refusal)
  deriving DecidableEq, Repr

/-- The access an event makes, as an instruction code. -/
def fetch (c : Config) : HostEvent → Fetched
  | .reset => .reset
  | .read size addr =>
    match busOffset c size addr with
    | .ok o => .code (.rd o)
    | .error r => .refused r
  | .write size addr data =>
    match busOffset c size addr with
    | .ok o => .code (.wr o data)
    | .error r => .refused r

/-- The reset input (R240): every state element at its reset value, TREE included. The parameters, the host's later
accesses and what it has received are outside the HBPU and stay (log 7). -/
def takeReset (s : State) : State := { s with hbpu := Hbpu.reset }

/-- The bus access that carries an instruction code: a command word travels in a write to CMD (30_encoding.md R80). -/
def eventOf (c : Config) : Code → HostEvent
  | .cmd w => .write .word (c.hbpuBase + 0x010) w
  | .rd o => .read .word (c.hbpuBase + o.toNat)
  | .wr o d => .write .word (c.hbpuBase + o.toNat) d

/-- The event for a word of spec/opcode_table.json. A word that is no code of the table becomes an access just outside
the block, which `step` refuses (log 8). -/
def tableEvent (c : Config) (nbits w : Nat) : HostEvent :=
  match tableCode nbits w with
  | some code => eventOf c code
  | none => .read .word (c.hbpuBase + 0x1000)

end Sys2Proof.Machine
end

