-- ==== Sys2Proof/Machine/Control.lean ====
section
/-! DEFINITION. Control and tree-loading commands (41_control_tree.md R121 to R127). -/

namespace Sys2Proof.Machine

/-- NOP (R122): no effect. -/
def execNop (s : State) : Result := .next s

/-- SOFT_RESET (R123): PADMODE, ARG and ROOT to 0, then ClearSession; TREE is kept. -/
def execSoftReset (s : State) : Result :=
  commit s { s.hbpu with padmode := .strict, arg := 0, root := 0 }.clearSession

/-- ABORT (R124): ClearSession. -/
def execAbort (s : State) : Result := commit s s.hbpu.clearSession

/-- TREE_WRITE (R125), in IDLE: `TREE[IDX] <- canon(ARG)`. -/
def execTreeWrite (i : Index) (s : State) : Result :=
  requireMode (.treeWrite i) s (commit s { s.hbpu with tree := s.hbpu.tree.write i (canon s.hbpu.arg) })

/-- TREE_READ (R126), in every mode: `ARG <- TREE[IDX]`; an entry never written faults (10_state.md R36). -/
def execTreeRead (i : Index) (s : State) : Result :=
  match s.hbpu.tree.read i with
  | none => .fault (.treeUnwritten i)
  | some w => commit s { s.hbpu with arg := w }

/-- SET_ROOT (R127), in IDLE: `ROOT <- IDX; WALK <- IDX`. -/
def execSetRoot (i : Index) (s : State) : Result :=
  requireMode (.setRoot i) s (commit s { s.hbpu with root := i, walk := i })

end Sys2Proof.Machine
end

