-- ==== Sys2Proof/Machine/Pack.lean ====
section
/-! DEFINITION. Pack commands (42_pack.md R140 to R147). -/

namespace Sys2Proof.Machine

/-- The state PACK_START leaves (R144): the padding is emitted when it fills a byte (p = 8), else it waits in ACC. -/
def Hbpu.openPack (h : Hbpu) : Hbpu :=
  let p := padLength h.arg.toNat
  let h := { h with remain := h.arg, mode := .pack, done := false, trunc := false, malpad := false }
  if p = 8 then { h with out := h.out ++ [0x01], acc := 0, accn := 0 }
  else { h with acc := 1, accn := BitVec.ofNat 3 p }

/-- PACK_START (R144), in IDLE, with L = ARG. -/
def execPackStart (s : State) : Result :=
  requireMode .packStart s <|
    if s.hbpu.out.length ≠ 0 then rejected s .notDrained
    else commit s s.hbpu.openPack

/-- PACK_BITS (R145), in PACK: push ARG[N−1:0], all or nothing. -/
def execPackBits (n : BitVec 6) (s : State) : Result :=
  requireMode (.packBits n) s <|
    if n.toNat = 0 ∨ maxPush < n.toNat then rejected s .badCount
    else if s.hbpu.remain.toNat < n.toNat then failed s .lengthOverrun
    else if s.outRoom < s.hbpu.bytesMade n.toNat then rejected s .outFull
    else commit s (s.hbpu.pushBits (bitsBelow s.hbpu.arg n.toNat))

/-- PACK_SYM (R146), in PACK: push the bit of a symbol byte. -/
def execPackSym (y : Byte) (s : State) : Result :=
  requireMode (.packSym y) s <|
    match symbolBit y with
    | none => failed s .invalidBitString
    | some b =>
      if s.hbpu.remain = 0 then failed s .lengthOverrun
      else if s.outRoom < s.hbpu.bytesMade 1 then rejected s .outFull
      else commit s (s.hbpu.pushBit b)

/-- PACK_END (R147), in PACK. -/
def execPackEnd (s : State) : Result :=
  requireMode .packEnd s <|
    if s.hbpu.remain ≠ 0 then failed s .lengthShort
    else commit s { s.hbpu with mode := .idle, done := true }

end Sys2Proof.Machine
end

