-- ==== Sys2Proof/Machine/Unpack.lean ====
section
/-! DEFINITION. Unpack and tree-decode commands (43_unpack_decode.md R170 to R179). -/

namespace Sys2Proof.Machine

/-- UNPACK_START (R177), in IDLE. -/
def execUnpackStart (m : UMode) (s : State) : Result :=
  requireMode (.unpackStart m) s <|
    if s.hbpu.out.length ≠ 0 then rejected s .notDrained
    else commit s
      { s.hbpu with
        mode := .unpack, umode := m
        first := true, walk := s.hbpu.root, inCode := false
        done := false, trunc := false, malpad := false }

/-- The state an accepted UNPACK_BYTE leaves (R178). -/
def Hbpu.acceptByte (h : Hbpu) (x : Walk) (dropped : Bool) : Hbpu :=
  { h with
    out := h.out ++ x.out, walk := x.node, inCode := x.inCode, first := false
    malpad := h.malpad || dropped }

/-- UNPACK_BYTE (R178), in UNPACK: everything is computed, then committed. -/
def execUnpackByte (b : Byte) (s : State) : Result :=
  requireMode (.unpackByte b) s <|
    match byteBits s.hbpu.first s.hbpu.padmode b with
    | none => failed s .malformedPadding
    | some (bits, dropped) =>
      match s.hbpu.unpackBits bits with
      | .error .atLeaf => failed s .treeFault
      | .error (.unwritten i) => .fault (.treeUnwritten i)
      | .ok x =>
        if s.outRoom < x.out.length then rejected s .outFull
        else commit s (s.hbpu.acceptByte x dropped)

/-- UNPACK_END (R179), in UNPACK: a walk in progress is truncation, not an error. -/
def execUnpackEnd (s : State) : Result :=
  requireMode .unpackEnd s <|
    if s.hbpu.first then failed s .emptyInput
    else commit s
      { s.hbpu with
        trunc := if s.hbpu.umode = .decode ∧ s.hbpu.inCode = true then true else s.hbpu.trunc
        mode := .idle, done := true }

end Sys2Proof.Machine
end

