-- ==== Sys2Proof/Machine/Command.lean ====
section
/-! DEFINITION. WR CMD (40_host_access.md R109): decode the data word and run the command. -/

namespace Sys2Proof.Machine

/-- Run a decoded command. A command word never decodes to a register access (30_encoding.md R86, lemma
`decodeCmd_isCommand`), so those arms are not reached. -/
def runCommand (i : Instr) (s : State) : Result :=
  match i with
  | .nop => execNop s
  | .softReset => execSoftReset s
  | .abort => execAbort s
  | .packStart => execPackStart s
  | .packBits n => execPackBits n s
  | .packSym y => execPackSym y s
  | .packEnd => execPackEnd s
  | .unpackStart m => execUnpackStart m s
  | .unpackByte b => execUnpackByte b s
  | .unpackEnd => execUnpackEnd s
  | .treeWrite i => execTreeWrite i s
  | .treeRead i => execTreeRead i s
  | .setRoot i => execSetRoot i s
  | .rdId | .rdCtrl | .rdStatus | .rdArg | .rdCmd | .rdOut | .rdRoot | .rdRemain | .rdWalk | .rdPacc | .rdUnmapped _
  | .wrCtrl _ | .wrArg _ | .wrCmd _ | .wrId _ | .wrStatus _ | .wrOut _ | .wrRoot _ | .wrRemain _ | .wrWalk _
  | .wrPacc _ | .wrUnmapped _ _ => rejected s .illegalCmd

/-- WR CMD (R109): the decode of 30_encoding.md R86; an illegal word is rejected with ILLEGAL_CMD (R83, R84). -/
def execWrCmd (w : Word) (s : State) : Result :=
  match decodeCmd w with
  | .error _ => rejected s .illegalCmd
  | .ok i => runCommand i s

end Sys2Proof.Machine
end

