-- ==== Sys2Proof/Machine/RegAccess.lean ====
section
/-! DEFINITION. The register accesses (40_host_access.md), less the write to CMD. Every one is legal in every mode and
none raises an error (60_exceptions.md R216). -/

namespace Sys2Proof.Machine

/-- RD ID (R101). -/
def execRdId (s : State) : Result := reply s idWord

/-- RD CTRL (R102). -/
def execRdCtrl (s : State) : Result := reply s (ctrlWord s.hbpu)

/-- RD STATUS (R104). -/
def execRdStatus (s : State) : Result := reply s (statusWord s.hbpu)

/-- RD ARG (R106). -/
def execRdArg (s : State) : Result := reply s s.hbpu.arg

/-- RD CMD (R108): returns 0 and executes nothing. -/
def execRdCmd (s : State) : Result := reply s 0

/-- RD OUT (R110, 20_memory.md R63): pops the head and returns it with VALID (bit 8), or returns 0. -/
def execRdOut (s : State) : Result :=
  match s.hbpu.out with
  | [] => reply s 0
  | b :: rest => reply { s with hbpu := { s.hbpu with out := rest } } (0x00000100 ||| b.setWidth 32)

/-- RD ROOT (R111). -/
def execRdRoot (s : State) : Result := reply s (s.hbpu.root.setWidth 32)

/-- RD REMAIN (R112). -/
def execRdRemain (s : State) : Result := reply s s.hbpu.remain

/-- RD WALK (R113). -/
def execRdWalk (s : State) : Result := reply s (s.hbpu.walk.setWidth 32)

/-- RD PACC (R114). -/
def execRdPacc (s : State) : Result := reply s (paccWord s.hbpu)

/-- RD of an unmapped offset (R115): returns 0. -/
def execRdUnmapped (s : State) : Result := reply s 0

/-- WR CTRL (R103): PADMODE is bit 0 of the data. -/
def execWrCtrl (d : Word) (s : State) : Result :=
  commit s { s.hbpu with padmode := PadMode.ofBit (d.getLsbD 0) }

/-- WR ARG (R107). -/
def execWrArg (d : Word) (s : State) : Result := commit s { s.hbpu with arg := d }

/-- A write that is ignored (R105, 20_memory.md R53, R54). -/
def ignoredWrite (s : State) : Result := .next s

/-- WR ID (R105). -/
def execWrId (s : State) : Result := ignoredWrite s

/-- WR STATUS (R105). -/
def execWrStatus (s : State) : Result := ignoredWrite s

/-- WR OUT (R105): neither appends nor pops. -/
def execWrOut (s : State) : Result := ignoredWrite s

/-- WR ROOT (R105): the root is set by SET_ROOT only. -/
def execWrRoot (s : State) : Result := ignoredWrite s

/-- WR REMAIN (R105). -/
def execWrRemain (s : State) : Result := ignoredWrite s

/-- WR WALK (R105). -/
def execWrWalk (s : State) : Result := ignoredWrite s

/-- WR PACC (R105). -/
def execWrPacc (s : State) : Result := ignoredWrite s

/-- WR of an unmapped offset (R105). -/
def execWrUnmapped (s : State) : Result := ignoredWrite s

end Sys2Proof.Machine
end

