-- ==== Sys2Proof/Machine/Dispatch.lean ====
section
/-! DEFINITION. One arm per instruction. -/

namespace Sys2Proof.Machine

def exec (i : Instr) (s : State) : Host.Outcome State Fault Refusal :=
  match i with
  -- commands
  | .nop => Sys2Proof.Machine.execNop s
  | .softReset => Sys2Proof.Machine.execSoftReset s
  | .abort => Sys2Proof.Machine.execAbort s
  | .packStart => Sys2Proof.Machine.execPackStart s
  | .packBits n => Sys2Proof.Machine.execPackBits n s
  | .packSym y => Sys2Proof.Machine.execPackSym y s
  | .packEnd => Sys2Proof.Machine.execPackEnd s
  | .unpackStart m => Sys2Proof.Machine.execUnpackStart m s
  | .unpackByte b => Sys2Proof.Machine.execUnpackByte b s
  | .unpackEnd => Sys2Proof.Machine.execUnpackEnd s
  | .treeWrite idx => Sys2Proof.Machine.execTreeWrite idx s
  | .treeRead idx => Sys2Proof.Machine.execTreeRead idx s
  | .setRoot idx => Sys2Proof.Machine.execSetRoot idx s
  -- register reads
  | .rdId => Sys2Proof.Machine.execRdId s
  | .rdCtrl => Sys2Proof.Machine.execRdCtrl s
  | .rdStatus => Sys2Proof.Machine.execRdStatus s
  | .rdArg => Sys2Proof.Machine.execRdArg s
  | .rdCmd => Sys2Proof.Machine.execRdCmd s
  | .rdOut => Sys2Proof.Machine.execRdOut s
  | .rdRoot => Sys2Proof.Machine.execRdRoot s
  | .rdRemain => Sys2Proof.Machine.execRdRemain s
  | .rdWalk => Sys2Proof.Machine.execRdWalk s
  | .rdPacc => Sys2Proof.Machine.execRdPacc s
  | .rdUnmapped _ => Sys2Proof.Machine.execRdUnmapped s
  -- register writes
  | .wrCtrl d => Sys2Proof.Machine.execWrCtrl d s
  | .wrArg d => Sys2Proof.Machine.execWrArg d s
  | .wrCmd w => Sys2Proof.Machine.execWrCmd w s
  | .wrId _ => Sys2Proof.Machine.execWrId s
  | .wrStatus _ => Sys2Proof.Machine.execWrStatus s
  | .wrOut _ => Sys2Proof.Machine.execWrOut s
  | .wrRoot _ => Sys2Proof.Machine.execWrRoot s
  | .wrRemain _ => Sys2Proof.Machine.execWrRemain s
  | .wrWalk _ => Sys2Proof.Machine.execWrWalk s
  | .wrPacc _ => Sys2Proof.Machine.execWrPacc s
  | .wrUnmapped _ _ => Sys2Proof.Machine.execWrUnmapped s

end Sys2Proof.Machine
end

