-- ==== Sys2Proof/Machine/Step.lean ====
section
/-! DEFINITION. One step of the machine: the host's next access, whole, or a reset (20_memory.md R65, R70). There is no
program counter (10_state.md R21): the host's queue of accesses is the program. -/

namespace Sys2Proof.Machine

/-- Serve the oldest event of the queue. With no event the machine stays as it is: the engine takes no step of its own
(00_scope.md R12, log 1). -/
def step (s : State) : Host.Outcome State Fault Refusal :=
  match s.bus with
  | [] => .next s
  | ev :: rest =>
    match fetch s.cfg ev with
    | .reset => .next (takeReset { s with bus := rest })
    | .refused r => .refused r
    | .code c =>
      match decode c with
      | .ok i => exec i { s with bus := rest }
      | .error e => .refused (.undecodable e)

/-- `s` with a word of spec/opcode_table.json as the host's next access (log 8). -/
def State.withFetchWord (s : State) (nbits w : Nat) : State :=
  { s with bus := tableEvent s.cfg nbits w :: s.bus }

end Sys2Proof.Machine
end

