-- ==== Sys2Proof/Safety.lean ====
section
/-! DEFINITION. The terms claims are stated in: how a command ends (60_exceptions.md R213), what holds between accesses
(10_state.md R41, R42), the packed file format (20_memory.md R58) and the source's pack, unpack and decode as
functions, and what a host sees of a session (20_memory.md R69). -/

namespace Sys2Proof.Machine

/-! ## How an instruction ends (60_exceptions.md R213 to R215) -/

/-- The instruction is rejected with code `c`: nothing changes but ERR, and ERR only when it was 0 (R214). -/
def RejectsWith (i : Instr) (s : State) (c : ErrCode) : Prop :=
  exec i s = .next { s with hbpu := { s.hbpu with err := if s.hbpu.err = .none then c else s.hbpu.err } }

/-- The instruction ends in the fatal error `c`: ERR, MODE and OUT change and nothing else (R215). -/
def FailsWith (i : Instr) (s : State) (c : ErrCode) : Prop :=
  exec i s = .next { s with hbpu := { s.hbpu with err := c, mode := .error, out := [] } }

/-- The thirteen commands of 30_encoding.md R82. -/
def isCommand : Instr → Bool
  | .nop | .softReset | .abort | .packStart | .packBits _ | .packSym _ | .packEnd | .unpackStart _ | .unpackByte _
  | .unpackEnd | .treeWrite _ | .treeRead _ | .setRoot _ => true
  | .rdId | .rdCtrl | .rdStatus | .rdArg | .rdCmd | .rdOut | .rdRoot | .rdRemain | .rdWalk | .rdPacc | .rdUnmapped _
  | .wrCtrl _ | .wrArg _ | .wrCmd _ | .wrId _ | .wrStatus _ | .wrOut _ | .wrRoot _ | .wrRemain _ | .wrWalk _
  | .wrPacc _ | .wrUnmapped _ _ => false

/-- The command a write to CMD runs, and any other instruction itself (40_host_access.md R109). An illegal word
stays the write it is. -/
def plain (i : Instr) : Instr :=
  match i with
  | .wrCmd w => (decode (.cmd w)).toOption.getD (.wrCmd w)
  | j => j

/-- The table of 30_encoding.md R82: each opcode with its reserved mask, written out. -/
def reservedMasks : List (Nat × Word) :=
  [(0x0, 0x0FFFFFFF), (0x1, 0x0FFFFFFF), (0x2, 0x0FFFFFFF), (0x3, 0x0FFFFFFF), (0x4, 0x0FFFFFC0), (0x5, 0x0FFFFF00),
   (0x6, 0x0FFFFFFF), (0x7, 0x0FFFFFFE), (0x8, 0x0FFFFF00), (0x9, 0x0FFFFFFF), (0xA, 0x0FFFFF00), (0xB, 0x0FFFFF00),
   (0xC, 0x0FFFFF00)]

/-- A legal command word: OP is one of 0x0..0xC and no reserved bit is 1 (30_encoding.md R82). -/
def LegalWord (w : Word) : Prop := ∃ r ∈ reservedMasks, (w >>> 28).toNat = r.1 ∧ w &&& r.2 = 0

/-- The table of 30_encoding.md R87: the modes in which a command is accepted, written out. -/
def acceptingModes : Instr → List Mode
  | .nop | .softReset | .abort | .treeRead _ => [.idle, .pack, .unpack, .error]
  | .packStart | .unpackStart _ | .treeWrite _ | .setRoot _ => [.idle]
  | .packBits _ | .packSym _ | .packEnd => [.pack]
  | .unpackByte _ | .unpackEnd => [.unpack]
  | .rdId | .rdCtrl | .rdStatus | .rdArg | .rdCmd | .rdOut | .rdRoot | .rdRemain | .rdWalk | .rdPacc | .rdUnmapped _
  | .wrCtrl _ | .wrArg _ | .wrCmd _ | .wrId _ | .wrStatus _ | .wrOut _ | .wrRoot _ | .wrRemain _ | .wrWalk _
  | .wrPacc _ | .wrUnmapped _ _ => [.idle, .pack, .unpack, .error]

/-- Every entry of the tree RAM has been written since power-on. -/
def TreeFull (s : State) : Prop := ∀ i : Index, s.hbpu.tree.read i ≠ none

/-! ## What holds between accesses -/

/-- The machine's invariant: the parameters are legal, the data keep their form, and R41 and R42 hold. -/
structure Inv (s : State) : Prop where
  /-- OUT_DEPTH is in the range of 00_scope.md R6. -/
  legal : s.cfg.legal
  /-- OUT holds at most OUT_DEPTH bytes (10_state.md R37). -/
  outFits : s.hbpu.out.length ≤ s.cfg.outDepth
  /-- The tree RAM is in canonical form. -/
  treeWf : Memory.wf s.hbpu.tree = true
  /-- Every stored node word is canonical: reserved bits read 0 (20_memory.md R61). -/
  treeCanon : ∀ e ∈ s.hbpu.tree, canon e.2 = e.2
  /-- ACC bits at ACCN and above are 0 (10_state.md R30). -/
  accBelow : s.hbpu.acc.toNat < 2 ^ s.hbpu.accn.toNat
  /-- `(ACCN + REMAIN) mod 8 = 0` in PACK (10_state.md R41). -/
  packAligned : s.hbpu.mode = .pack → (s.hbpu.accn.toNat + s.hbpu.remain.toNat) % 8 = 0
  /-- ACCN = 0 and REMAIN = 0 in IDLE (10_state.md R42 (a)). -/
  idleClean : s.hbpu.mode = .idle → s.hbpu.accn = 0 ∧ s.hbpu.remain = 0
  /-- The same in UNPACK, which is entered from IDLE. -/
  unpackClean : s.hbpu.mode = .unpack → s.hbpu.accn = 0 ∧ s.hbpu.remain = 0
  /-- OUT is empty in ERROR (10_state.md R42 (b)). -/
  errorEmpty : s.hbpu.mode = .error → s.hbpu.out = []
  /-- PARTIAL = 0 in a RAW session (10_state.md R42 (c)). -/
  rawWhole : s.hbpu.mode = .unpack → s.hbpu.umode = .raw → s.hbpu.inCode = false
  /-- In ERROR, ERR is the code of a fatal error (10_state.md R26, R42 (d)). -/
  errorFatal : s.hbpu.mode = .error → s.hbpu.err.fatal = true
  /-- DONE is 0 in a session and after its failure (10_state.md R27). -/
  doneIdle : s.hbpu.mode ≠ .idle → s.hbpu.done = false
  /-- FIRST is 1 only in an unpack session or after its failure (10_state.md R32). -/
  firstUnpack : s.hbpu.first = true → s.hbpu.mode = .unpack ∨ s.hbpu.mode = .error
  /-- In UNPACK the walk stands at ROOT when no code is in progress (43_unpack_decode.md R182). -/
  walkAtRoot : s.hbpu.mode = .unpack → s.hbpu.inCode = false → s.hbpu.walk = s.hbpu.root
  /-- In UNPACK the walk stands at an internal node when a code is in progress (43_unpack_decode.md R182). -/
  walkInside : s.hbpu.mode = .unpack → s.hbpu.inCode = true →
    ∃ n, s.hbpu.tree.read s.hbpu.walk = some n ∧ nodeIsLeaf n = false
  /-- A code is in progress only under an internal root: the walk started there (43_unpack_decode.md R182). -/
  rootInside : s.hbpu.mode = .unpack → s.hbpu.inCode = true →
    ∃ n, s.hbpu.tree.read s.hbpu.root = some n ∧ nodeIsLeaf n = false

/-! ## The packed file (20_memory.md R58) and the source's functions -/

/-- A byte from eight bits, the first in bit 7 (R56). -/
def byteOfBits (bs : List Bool) : Byte := bs.foldl (fun a b => (a <<< 1) ||| (BitVec.ofBool b).setWidth 8) 0

/-- A bit string cut into bytes, the first bit of each group of eight in bit 7 (R58). -/
def cutBytes : List Bool → List Byte
  | b7 :: b6 :: b5 :: b4 :: b3 :: b2 :: b1 :: b0 :: rest => byteOfBits [b7, b6, b5, b4, b3, b2, b1, b0] :: cutBytes rest
  | _ => []

/-- The padded string `"0"^(p−1) ++ "1" ++ P`, with `p = 8 − (L mod 8)` (42_pack.md R142). -/
def paddedBits (payload : List Bool) : List Bool :=
  List.replicate (8 - payload.length % 8 - 1) false ++ true :: payload

/-- The packed file of a payload: the source's `pack(P)` (R58, 42_pack.md R149). -/
def packedFile (payload : List Bool) : List Byte := cutBytes (paddedBits payload)

/-- What stands strictly after the first '1' of a bit string (43_unpack_decode.md R171). -/
def afterFirstOne : List Bool → List Bool
  | [] => []
  | true :: bs => bs
  | false :: bs => afterFirstOne bs

/-- The source's `unpack(F)` under a PADMODE: `none` for no file and for a malformed first byte under STRICT
(43_unpack_decode.md R171 to R173, R180). -/
def unpackedBits (pad : PadMode) : List Byte → Option (List Bool)
  | [] => none
  | b0 :: rest =>
    if b0 = 0 then
      match pad with
      | .strict => none
      | .compat => some (rest.flatMap bits8)
    else some (afterFirstOne (bits8 b0) ++ rest.flatMap bits8)

/-- A decode tree in which every internal node has two children and every leaf a character (43_unpack_decode.md R181). -/
inductive HuffTree where
  | leaf (c : BitVec 7)
  | node (left right : HuffTree)
  deriving DecidableEq, Repr

/-- The tree RAM holds a decode tree at an index. -/
def HuffTree.heldAt (m : Memory) : HuffTree → Index → Prop
  | .leaf c, i => ∃ w, m.read i = some w ∧ nodeIsLeaf w = true ∧ w.extractLsb' 0 7 = c
  | .node l r, i => ∃ w, m.read i = some w ∧ nodeIsLeaf w = false ∧ l.heldAt m (nodeLeft w) ∧ r.heldAt m (nodeRight w)

/-- The source's Decode walk over a bit string, standing at `cur` with `inside` = "a bit consumed since the last
emission": the characters, and `inside` at the end (43_unpack_decode.md R175, R181). -/
def sourceDecode (root : HuffTree) : HuffTree → Bool → List Bool → List Byte × Bool
  | _, inside, [] => ([], inside)
  | .leaf _, inside, _ :: _ => ([], inside)
  | .node l r, _, b :: bs =>
    match (if b then r else l) with
    | .leaf c => (c.setWidth 8 :: (sourceDecode root root false bs).1, (sourceDecode root root false bs).2)
    | .node l' r' => sourceDecode root (.node l' r') true bs

/-- The character at the end of a root-to-leaf path, '0' left and '1' right; `none` if the path does not end at a leaf. -/
def HuffTree.leafAt : HuffTree → List Bool → Option (BitVec 7)
  | .leaf c, [] => some c
  | .leaf _, _ :: _ => none
  | .node _ _, [] => none
  | .node l r, b :: bs => if b then r.leafAt bs else l.leafAt bs

/-- The bits a pack session has put out so far: the bytes of OUT, bit 7 first, then the bits waiting in ACC
(10_state.md R30). -/
def Hbpu.packedBits (h : Hbpu) : List Bool := h.out.flatMap bits8 ++ bitsBelow h.acc h.accn.toNat

/-! ## Sessions as a host sees them (20_memory.md R69) -/

/-- The machine and what the host has put in and taken out since a START: payload bits accepted by pack commands, file
bytes accepted by UNPACK_BYTE, bytes popped from OUT. -/
structure Session where
  st      : State
  pushed  : List Bool
  fed     : List Byte
  drained : List Byte

/-- The payload bits a pack command between `s` and `t` pushed: none when REMAIN stayed (it was rejected or failed). -/
def pushedBy (i : Instr) (s t : State) : List Bool :=
  if t.hbpu.remain = s.hbpu.remain then []
  else
    match i with
    | .packBits n => bitsBelow s.hbpu.arg n.toNat
    | .packSym y => [y == 0x31]
    | _ => []

/-- Whether UNPACK_BYTE commits in `s`: its outputs can be computed and fit (43_unpack_decode.md R178). -/
def acceptsByte (b : Byte) (s : State) : Bool :=
  s.hbpu.mode == .unpack &&
    match byteBits s.hbpu.first s.hbpu.padmode b with
    | none => false
    | some (bits, _) =>
      match s.hbpu.unpackBits bits with
      | .ok x => decide (x.out.length ≤ s.outRoom)
      | .error _ => false

/-- The file byte an instruction feeds. -/
def fedBy (i : Instr) (s : State) : List Byte :=
  match i with
  | .unpackByte b => if acceptsByte b s then [b] else []
  | _ => []

/-- The byte an instruction takes out of OUT. -/
def drainedBy (i : Instr) (s : State) : List Byte :=
  match i with
  | .rdOut => s.hbpu.out.take 1
  | _ => []

/-- Run a list of instructions, keeping the host's account; `none` if one faults. -/
def Session.run : List Instr → Session → Option Session
  | [], x => some x
  | i :: is, x =>
    match exec i x.st with
    | .next t =>
      Session.run is
        { st := t
          pushed := x.pushed ++ pushedBy (plain i) x.st t
          fed := x.fed ++ fedBy (plain i) x.st
          drained := x.drained ++ drainedBy (plain i) x.st }
    | .fault _ => none
    | .refused _ => none

/-- An instruction that neither abandons nor ends a session: anything but SOFT_RESET, ABORT, PACK_END and UNPACK_END. -/
def staysInSession (i : Instr) : Bool :=
  match plain i with
  | .softReset | .abort | .packEnd | .unpackEnd => false
  | _ => true

end Sys2Proof.Machine
end

