-- ==== Sys2Proof/Certificates/Slice0/Obligations.lean ====
section
/-! DEFINITION. The statements for the provers, from the numbered rules of spec/. Each says what an instruction or the
machine does; a conclusion `exec i s = .next { s with … }` is result, frame and completion at once. -/

open Sys2Proof Sys2Proof.Machine

/-! ## Steps -/

/-- A step serves the host's next 32-bit access: it runs the instruction the access decodes to, on the state with that
access taken off the queue (20_memory.md R65, R70). The queue is the model's own (log 1). -/
def Obligations.StepRunsTheDecodedAccess : Prop :=
  ∀ (s : State) (rest : List HostEvent) (o : Offset) (d : Word) (i : Instr),
    (s.bus = .read .word (s.cfg.hbpuBase + o.toNat) :: rest → decode (.rd o) = .ok i →
      step s = exec i { s with bus := rest }) ∧
    (s.bus = .write .word (s.cfg.hbpuBase + o.toNat) d :: rest → decode (.wr o d) = .ok i →
      step s = exec i { s with bus := rest })

/-- A step whose access writes a legal command word to CMD runs that command. -/
def Obligations.StepRunsTheCommandWrittenToCmd : Prop :=
  ∀ (s : State) (rest : List HostEvent) (w : Word) (i : Instr),
    s.bus = .write .word (s.cfg.hbpuBase + 0x010) w :: rest → decode (.cmd w) = .ok i →
      step s = exec i { s with bus := rest }

/-- 32-bit word-aligned accesses within HBPU_BASE + 0x000..0xFFC are never refused, and every other access is
(20_memory.md R50, R52; 93_implementation_defined.md). That an access below HBPU_BASE is outside the block is an inference
from R50, and the names of the refusals are the model's choice (log 5). -/
def Obligations.OnlyAlignedWordAccessesHaveAStep : Prop :=
  ∀ (s : State) (rest : List HostEvent) (ev : HostEvent) (size : AccessSize) (addr : Nat) (d : Word),
    (ev = .read size addr ∨ ev = .write size addr d) → s.bus = ev :: rest →
      (size ≠ .word → step s = .refused .subWord) ∧
      (size = .word → (addr < s.cfg.hbpuBase ∨ s.cfg.hbpuBase + 0x1000 ≤ addr) → step s = .refused .outsideBlock) ∧
      (size = .word → s.cfg.hbpuBase ≤ addr → addr < s.cfg.hbpuBase + 0x1000 →
        (addr - s.cfg.hbpuBase) % 4 ≠ 0 → step s = .refused (.undecodable .misaligned)) ∧
      (size = .word → s.cfg.hbpuBase ≤ addr → addr < s.cfg.hbpuBase + 0x1000 →
        (addr - s.cfg.hbpuBase) % 4 = 0 → ∀ r, step s ≠ .refused r)

/-- With no access pending nothing changes: the engine takes no step of its own (00_scope.md R12). That such a step is
a step that stays is the model's choice (log 1). -/
def Obligations.NoPendingAccessNoChange : Prop :=
  ∀ s : State, s.bus = [] → step s = .next s

/-- The reset input leaves every state element at its reset value, from every state (70_reset_and_hazards.md R240).
That TREE then lists no entry is the model's reading of TREE_INIT (log 4), and that the host's side stays is the model's
choice (log 7). -/
def Obligations.ResetInputSetsResetValues : Prop :=
  ∀ (s : State) (rest : List HostEvent), s.bus = .reset :: rest →
    step s = .next { s with
      bus := rest
      hbpu :=
        { padmode := .strict, arg := 0, mode := .idle, umode := .raw, first := false, done := false, trunc := false,
          malpad := false, inCode := false, err := .none, acc := 0, accn := 0, remain := 0, root := 0, walk := 0,
          tree := [], out := [] } }

/-! ## Encoding -/

/-- Every well-formed instruction's code decodes to it, with every operand at every value. -/
def Obligations.DecodeOfEncodeIsTheInstruction : Prop :=
  ∀ i : Instr, i.wellFormed = true → decode (encode i) = .ok i

/-- Every code that decodes is the code of its instruction, and of a well-formed one: no two codes share an
instruction and no bit of a code is ignored. -/
def Obligations.EncodeOfDecodeIsTheCode : Prop :=
  ∀ (c : Code) (i : Instr), decode c = .ok i → i.wellFormed = true ∧ encode i = c

/-- R83, R84: a command word decodes exactly when it is legal by the table of R82; any other is rejected with
ILLEGAL_CMD and changes nothing but ERR. -/
def Obligations.IllegalCommandWordsAreRejected : Prop :=
  ErrCode.illegalCmd.code = 1 ∧
  ∀ (w : Word) (s : State),
    ((∃ i, decode (.cmd w) = .ok i) ↔ LegalWord w) ∧ (¬ LegalWord w → RejectsWith (.wrCmd w) s .illegalCmd)

/-- Words written out from R81 and R82, and descriptors from R88, decode to the instructions they stand for. -/
def Obligations.SampleWordsDecode : Prop :=
  decode (.cmd 0x00000000) = .ok .nop ∧ decode (.cmd 0x40000006) = .ok (.packBits 6) ∧
  decode (.cmd 0x50000031) = .ok (.packSym 0x31) ∧ decode (.cmd 0x70000001) = .ok (.unpackStart .decode) ∧
  decode (.cmd 0x8000004B) = .ok (.unpackByte 0x4B) ∧ decode (.cmd 0xC000002A) = .ok (.setRoot 0x2A) ∧
  decode (.cmd 0xA0000100) = .error .reservedBit ∧ decode (.cmd 0xD0000000) = .error .reservedOpcode ∧
  decode (Code.ofDescriptor 0x0024 0) = .ok .rdPacc ∧ decode (Code.ofDescriptor 0x100C 6) = .ok (.wrArg 6)

/-! ## Register accesses -/

/-- R101, R108, R115: RD ID returns the constant, RD CMD and reads of unmapped offsets return 0; nothing else changes. -/
def Obligations.ConstantReads : Prop :=
  ∀ s : State,
    (decode (Code.ofDescriptor 0x0000 0) = .ok .rdId ∧
      exec .rdId s = .next { s with replies := s.replies ++ [0x48425055] }) ∧
    (decode (Code.ofDescriptor 0x0010 0) = .ok .rdCmd ∧ exec .rdCmd s = .next { s with replies := s.replies ++ [0] }) ∧
    (∀ o : Offset, 0x028 ≤ o.toNat → o.toNat % 4 = 0 →
      decode (Code.ofDescriptor (o.setWidth 13) 0) = .ok (.rdUnmapped o) ∧
      exec (.rdUnmapped o) s = .next { s with replies := s.replies ++ [0] })

/-- R102, R106: RD CTRL returns PADMODE in bit 0 and zeros above, RD ARG returns ARG; nothing else changes. -/
def Obligations.ReadsOfCtrlAndArg : Prop :=
  ∀ s : State,
    (decode (Code.ofDescriptor 0x0004 0) = .ok .rdCtrl ∧
      exec .rdCtrl s = .next { s with replies := s.replies ++ [if s.hbpu.padmode = .compat then 1 else 0] }) ∧
    (decode (Code.ofDescriptor 0x000C 0) = .ok .rdArg ∧
      exec .rdArg s = .next { s with replies := s.replies ++ [s.hbpu.arg] })

/-- R39: RD PACC returns ACC in bits [6:0], ACCN in [10:8] and zeros elsewhere; RD ROOT, RD WALK and RD REMAIN return
their element zero-extended; no read has a side effect. The descriptors are those of 30_encoding.md R88. -/
def Obligations.ReadOnlyViews : Prop :=
  decode (Code.ofDescriptor 0x0024 0) = .ok .rdPacc ∧ decode (Code.ofDescriptor 0x0018 0) = .ok .rdRoot ∧
  decode (Code.ofDescriptor 0x0020 0) = .ok .rdWalk ∧ decode (Code.ofDescriptor 0x001C 0) = .ok .rdRemain ∧
  ∀ s : State,
    (∃ w : Word, exec .rdPacc s = .next { s with replies := s.replies ++ [w] } ∧ w.extractLsb' 0 7 = s.hbpu.acc ∧
      w.getLsbD 7 = false ∧ w.extractLsb' 8 3 = s.hbpu.accn ∧ w.extractLsb' 11 21 = 0) ∧
    (∃ w : Word, exec .rdRoot s = .next { s with replies := s.replies ++ [w] } ∧ w.toNat = s.hbpu.root.toNat) ∧
    (∃ w : Word, exec .rdWalk s = .next { s with replies := s.replies ++ [w] } ∧ w.toNat = s.hbpu.walk.toNat) ∧
    exec .rdRemain s = .next { s with replies := s.replies ++ [s.hbpu.remain] }

/-- R38: the fields of the word RD STATUS returns, ERR's codes by the numbers of 60_exceptions.md R211, its reserved
bits 0; the read changes nothing; the reset value is 0. -/
def Obligations.StatusWordFields : Prop :=
  decode (Code.ofDescriptor 0x0008 0) = .ok .rdStatus ∧
  (∀ s : State, ∃ w : Word, exec .rdStatus s = .next { s with replies := s.replies ++ [w] } ∧
    (w.extractLsb' 0 2).toNat = (match s.hbpu.mode with | .idle => 0 | .pack => 1 | .unpack => 2 | .error => 3) ∧
    w.getLsbD 2 = (s.hbpu.umode == .decode) ∧ w.getLsbD 3 = s.hbpu.first ∧ w.getLsbD 4 = s.hbpu.done ∧
    w.getLsbD 5 = s.hbpu.trunc ∧ w.getLsbD 6 = s.hbpu.malpad ∧ w.getLsbD 7 = s.hbpu.inCode ∧
    (w.extractLsb' 8 4).toNat = (match s.hbpu.err with
      | .none => 0 | .illegalCmd => 1 | .badMode => 2 | .badCount => 3 | .outFull => 4 | .notDrained => 5
      | .invalidBitString => 6 | .lengthOverrun => 7 | .lengthShort => 8 | .malformedPadding => 9
      | .emptyInput => 10 | .treeFault => 11) ∧
    w.extractLsb' 12 4 = 0 ∧
    (s.hbpu.out.length ≤ 255 → (w.extractLsb' 16 8).toNat = s.hbpu.out.length) ∧ w.extractLsb' 24 8 = 0) ∧
  ∀ c : Config, exec .rdStatus (State.resetWith c) = .next { State.resetWith c with replies := [0] }

/-- R63: RD OUT pops the head and returns it with bit 8 set, and returns 0 and changes nothing when OUT is empty. -/
def Obligations.ReadOfOutPopsTheHead : Prop :=
  ∀ s : State, decode (Code.ofDescriptor 0x0014 0) = .ok .rdOut ∧
    (s.hbpu.out = [] → exec .rdOut s = .next { s with replies := s.replies ++ [0] }) ∧
    (∀ b rest, s.hbpu.out = b :: rest → ∃ w : Word, w.toNat = 0x100 + b.toNat ∧
      exec .rdOut s = .next { s with hbpu := { s.hbpu with out := rest }, replies := s.replies ++ [w] })

/-- R107: WR ARG stores all 32 bits of its data and changes nothing else, in every mode. -/
def Obligations.WriteOfArgStoresTheWord : Prop :=
  ∀ (s : State) (d : Word), decode (Code.ofDescriptor 0x100C d) = .ok (.wrArg d) ∧
    exec (.wrArg d) s = .next { s with hbpu := { s.hbpu with arg := d } }

/-- R105: a write to a read-only register or an unmapped offset changes nothing. -/
def Obligations.ReadOnlyWritesAreIgnored : Prop :=
  ∀ (s : State) (d : Word),
    (decode (Code.ofDescriptor 0x1000 d) = .ok (.wrId d) ∧ exec (.wrId d) s = .next s) ∧
    (decode (Code.ofDescriptor 0x1008 d) = .ok (.wrStatus d) ∧ exec (.wrStatus d) s = .next s) ∧
    (decode (Code.ofDescriptor 0x1014 d) = .ok (.wrOut d) ∧ exec (.wrOut d) s = .next s) ∧
    (decode (Code.ofDescriptor 0x1018 d) = .ok (.wrRoot d) ∧ exec (.wrRoot d) s = .next s) ∧
    (decode (Code.ofDescriptor 0x101C d) = .ok (.wrRemain d) ∧ exec (.wrRemain d) s = .next s) ∧
    (decode (Code.ofDescriptor 0x1020 d) = .ok (.wrWalk d) ∧ exec (.wrWalk d) s = .next s) ∧
    (decode (Code.ofDescriptor 0x1024 d) = .ok (.wrPacc d) ∧ exec (.wrPacc d) s = .next s) ∧
    (∀ o : Offset, 0x028 ≤ o.toNat → o.toNat % 4 = 0 →
      decode (Code.ofDescriptor (0x1000 ||| o.setWidth 13) d) = .ok (.wrUnmapped o d) ∧
      exec (.wrUnmapped o d) s = .next s)

/-- Of the register accesses only RD OUT, WR CTRL, WR ARG and WR CMD change the HBPU, and every other completes
(20_memory.md R64: "Every other read and write has no effect on state"). -/
def Obligations.OtherAccessesKeepTheDevice : Prop :=
  ∀ (i : Instr) (s : State), isCommand i = false → i ≠ .rdOut → (∀ d, i ≠ .wrCtrl d) → (∀ d, i ≠ .wrArg d) →
    (∀ w, i ≠ .wrCmd w) → ∃ rs : List Word, rs.length ≤ 1 ∧ exec i s = .next { s with replies := s.replies ++ rs }

/-- R109: a write to CMD runs the command its data decodes to, and rejects an illegal word with ILLEGAL_CMD. The last
three clauses are completions for three command words, in every state. -/
def Obligations.WriteToCmdExecutesTheCommand : Prop :=
  ∀ (s : State) (w : Word), decode (Code.ofDescriptor 0x1010 w) = .ok (.wrCmd w) ∧
    (∀ i, decode (.cmd w) = .ok i → exec (.wrCmd w) s = exec i s) ∧
    (∀ e, decode (.cmd w) = .error e → RejectsWith (.wrCmd w) s .illegalCmd) ∧
    exec (.wrCmd 0x00000000) s = .next s ∧
    exec (.wrCmd 0x10000000) s = .next { s with hbpu := { Hbpu.reset with tree := s.hbpu.tree } } ∧
    exec (.wrCmd 0x20000000) s = .next { s with hbpu :=
      { Hbpu.reset with
        padmode := s.hbpu.padmode, arg := s.hbpu.arg, root := s.hbpu.root, walk := s.hbpu.root
        tree := s.hbpu.tree } }

/-! ## Control and tree commands -/

/-- R122: NOP is 0x00000000 exactly and has no effect; every other word with OP = 0 is illegal. -/
def Obligations.NopHasNoEffect : Prop :=
  ∀ s : State, decode (.cmd 0x00000000) = .ok .nop ∧ exec .nop s = .next s ∧
    ∀ w : Word, (w >>> 28) = 0 → w ≠ 0 → RejectsWith (.wrCmd w) s .illegalCmd

/-- R123: SOFT_RESET, in every mode, leaves the reset state but for TREE, which it keeps. -/
def Obligations.SoftResetKeepsOnlyTheTree : Prop :=
  ∀ s : State, decode (.cmd 0x10000000) = .ok .softReset ∧
    exec .softReset s = .next { s with hbpu :=
      { padmode := .strict, arg := 0, mode := .idle, umode := .raw, first := false, done := false, trunc := false,
        malpad := false, inCode := false, err := .none, acc := 0, accn := 0, remain := 0, root := 0, walk := 0,
        tree := s.hbpu.tree, out := [] } }

/-- R124: ABORT, in every mode, ends the session and keeps PADMODE, ARG, ROOT and TREE; WALK returns to ROOT. -/
def Obligations.AbortEndsTheSession : Prop :=
  ∀ s : State, decode (.cmd 0x20000000) = .ok .abort ∧
    exec .abort s = .next { s with hbpu :=
      { padmode := s.hbpu.padmode, arg := s.hbpu.arg, mode := .idle, umode := .raw, first := false, done := false,
        trunc := false, malpad := false, inCode := false, err := .none, acc := 0, accn := 0, remain := 0,
        root := s.hbpu.root, walk := s.hbpu.root, tree := s.hbpu.tree, out := [] } }

/-- R125, R61: TREE_WRITE in IDLE stores the canonical form of ARG at IDX, and every other entry and everything else
stays; outside IDLE it is BAD_MODE. -/
def Obligations.TreeWriteStoresTheCanonicalWord : Prop :=
  ∀ (s : State) (idx : Index), decode (.cmd (0xA0000000 ||| idx.setWidth 32)) = .ok (.treeWrite idx) ∧
    (s.hbpu.mode ≠ .idle → RejectsWith (.treeWrite idx) s .badMode) ∧
    (s.hbpu.mode = .idle → ∃ m : Memory,
      exec (.treeWrite idx) s = .next { s with hbpu := { s.hbpu with tree := m } } ∧
      m.read idx = some (if s.hbpu.arg.getLsbD 31 then s.hbpu.arg &&& 0x8000007F else s.hbpu.arg &&& 0x0000FFFF) ∧
      ∀ j, j ≠ idx → m.read j = s.hbpu.tree.read j)

/-- R126: TREE_READ moves a written entry to ARG in every mode and changes nothing else, the word being canonical;
an entry never written faults. -/
def Obligations.TreeReadMovesTheEntryToArg : Prop :=
  ∀ (s : State) (idx : Index), decode (.cmd (0xB0000000 ||| idx.setWidth 32)) = .ok (.treeRead idx) ∧
    (∀ w, s.hbpu.tree.read idx = some w →
      exec (.treeRead idx) s = .next { s with hbpu := { s.hbpu with arg := w } } ∧ (Inv s → canon w = w)) ∧
    (s.hbpu.tree.read idx = none → exec (.treeRead idx) s = .fault (.treeUnwritten idx))

/-- R127: SET_ROOT in IDLE sets ROOT and WALK, whatever the tree holds; outside IDLE it is BAD_MODE. -/
def Obligations.SetRootSetsRootAndWalk : Prop :=
  ∀ (s : State) (idx : Index), decode (.cmd (0xC0000000 ||| idx.setWidth 32)) = .ok (.setRoot idx) ∧
    (s.hbpu.mode = .idle →
      exec (.setRoot idx) s = .next { s with hbpu := { s.hbpu with root := idx, walk := idx } }) ∧
    (s.hbpu.mode ≠ .idle → RejectsWith (.setRoot idx) s .badMode)

/-- R87: a command outside its modes is rejected with BAD_MODE, before every other check; in its modes it is not. -/
def Obligations.ModeLegality : Prop :=
  ErrCode.badMode.code = 2 ∧
  ∀ (i : Instr) (s : State), isCommand i = true →
    (s.hbpu.mode ∉ acceptingModes i → RejectsWith i s .badMode) ∧
    (s.hbpu.mode ∈ acceptingModes i → s.hbpu.err = .none → ∀ t, exec i s = .next t → t.hbpu.err ≠ .badMode)

/-! ## Pack -/

/-- R141: the padding length lies in 1..8, completes the payload to whole bytes, and is 8 exactly for whole bytes. -/
def Obligations.PaddingLength : Prop :=
  ∀ len : Nat, padLength len = 8 - len % 8 ∧ 1 ≤ padLength len ∧ padLength len ≤ 8 ∧ (padLength len + len) % 8 = 0 ∧
    (padLength len = 8 ↔ len % 8 = 0)

/-- R144: PACK_START with L = ARG, all its cases. -/
def Obligations.PackStartEmitsThePadding : Prop :=
  ∀ s : State, decode (.cmd 0x30000000) = .ok .packStart ∧
    (s.hbpu.mode ≠ .idle → RejectsWith .packStart s .badMode) ∧
    (s.hbpu.mode = .idle → s.hbpu.out ≠ [] → RejectsWith .packStart s .notDrained) ∧
    (s.hbpu.mode = .idle → s.hbpu.out = [] → s.hbpu.arg.toNat % 8 = 0 →
      exec .packStart s = .next { s with hbpu := { s.hbpu with
        out := [0x01], acc := 0, accn := 0, remain := s.hbpu.arg, mode := .pack
        done := false, trunc := false, malpad := false } }) ∧
    (s.hbpu.mode = .idle → s.hbpu.out = [] → s.hbpu.arg.toNat % 8 ≠ 0 →
      ∃ n : BitVec 3, n.toNat = 8 - s.hbpu.arg.toNat % 8 ∧
      exec .packStart s = .next { s with hbpu := { s.hbpu with
        acc := 1, accn := n, remain := s.hbpu.arg, mode := .pack, done := false, trunc := false, malpad := false } })

/-- PushBit appends one bit behind the bits gathered so far, a full byte leaving for OUT, and lowers REMAIN by one;
nothing else changes (42_pack.md R143). That REMAIN = 0 wraps, where R143 has callers ensure REMAIN ≥ 1, is the model's
choice (log 10). -/
def Obligations.PushBitAppendsOneBit : Prop :=
  ∀ (h : Hbpu) (b : Bool), ∃ (out : List Byte) (acc : BitVec 7) (accn : BitVec 3),
    h.pushBit b = { h with out := out, acc := acc, accn := accn, remain := h.remain - 1 } ∧
    accn.toNat = (h.accn.toNat + 1) % 8 ∧
    (h.accn.toNat = 7 → acc = 0 ∧ ∃ a : Byte, out = h.out ++ [a] ∧ a.toNat = 2 * h.acc.toNat + b.toNat) ∧
    (h.accn.toNat ≠ 7 → out = h.out ∧ acc.toNat = (2 * h.acc.toNat + b.toNat) % 128)

/-- R145: PACK_BITS, all its cases. On success the bits ARG[N−1], …, ARG[0] are pushed in that order. -/
def Obligations.PackBitsPushesTheLowBitsOfArg : Prop :=
  ∀ (s : State) (n : BitVec 6), decode (.cmd (0x40000000 ||| n.setWidth 32)) = .ok (.packBits n) ∧
    (s.hbpu.mode ≠ .pack → RejectsWith (.packBits n) s .badMode) ∧
    (s.hbpu.mode = .pack → (n.toNat = 0 ∨ 32 < n.toNat) → RejectsWith (.packBits n) s .badCount) ∧
    (s.hbpu.mode = .pack → 1 ≤ n.toNat → n.toNat ≤ 32 →
      (s.hbpu.remain.toNat < n.toNat → FailsWith (.packBits n) s .lengthOverrun) ∧
      (n.toNat ≤ s.hbpu.remain.toNat →
        (s.cfg.outDepth - s.hbpu.out.length < (s.hbpu.accn.toNat + n.toNat) / 8 →
          RejectsWith (.packBits n) s .outFull) ∧
        ((s.hbpu.accn.toNat + n.toNat) / 8 ≤ s.cfg.outDepth - s.hbpu.out.length →
          exec (.packBits n) s = .next { s with
            hbpu := (List.range n.toNat).foldl (fun h k => h.pushBit (s.hbpu.arg.getLsbD (n.toNat - 1 - k))) s.hbpu })))

/-- What an accepted PACK_BITS does, seen as bits: it appends ARG[N−1..0] to the bits put out so far, whole bytes in
OUT and the rest in ACC, lowers REMAIN by N, and changes nothing else (42_pack.md R143, R145, R151). -/
def Obligations.PackBitsExtendsTheBitString : Prop :=
  ∀ (s : State) (n : BitVec 6), s.hbpu.mode = .pack → 1 ≤ n.toNat → n.toNat ≤ 32 → n.toNat ≤ s.hbpu.remain.toNat →
    (s.hbpu.accn.toNat + n.toNat) / 8 ≤ s.cfg.outDepth - s.hbpu.out.length →
    ∃ (new : List Byte) (acc : BitVec 7) (accn : BitVec 3) (remain : Word) (t : State),
      exec (.packBits n) s = .next t ∧
      t = { s with hbpu := { s.hbpu with out := s.hbpu.out ++ new, acc := acc, accn := accn, remain := remain } } ∧
      remain.toNat = s.hbpu.remain.toNat - n.toNat ∧ accn.toNat = (s.hbpu.accn.toNat + n.toNat) % 8 ∧
      new.length = (s.hbpu.accn.toNat + n.toNat) / 8 ∧
      t.hbpu.packedBits = s.hbpu.packedBits ++ bitsBelow s.hbpu.arg n.toNat

/-- R146: PACK_SYM, all its cases, INVALID_BIT_STRING before LENGTH_OVERRUN. -/
def Obligations.PackSymPushesOneSymbol : Prop :=
  ∀ (s : State) (y : Byte), decode (.cmd (0x50000000 ||| y.setWidth 32)) = .ok (.packSym y) ∧
    (s.hbpu.mode ≠ .pack → RejectsWith (.packSym y) s .badMode) ∧
    (s.hbpu.mode = .pack → y ≠ 0x30 → y ≠ 0x31 → FailsWith (.packSym y) s .invalidBitString) ∧
    (s.hbpu.mode = .pack → (y = 0x30 ∨ y = 0x31) →
      (s.hbpu.remain = 0 → FailsWith (.packSym y) s .lengthOverrun) ∧
      (s.hbpu.remain ≠ 0 → s.cfg.outDepth - s.hbpu.out.length < (s.hbpu.accn.toNat + 1) / 8 →
        RejectsWith (.packSym y) s .outFull) ∧
      (s.hbpu.remain ≠ 0 → (s.hbpu.accn.toNat + 1) / 8 ≤ s.cfg.outDepth - s.hbpu.out.length →
        exec (.packSym y) s = .next { s with hbpu := s.hbpu.pushBit (y == 0x31) }))

/-- R147: PACK_END, all its cases. -/
def Obligations.PackEndNeedsEveryBit : Prop :=
  ∀ s : State, decode (.cmd 0x60000000) = .ok .packEnd ∧
    (s.hbpu.mode ≠ .pack → RejectsWith .packEnd s .badMode) ∧
    (s.hbpu.mode = .pack → s.hbpu.remain ≠ 0 → FailsWith .packEnd s .lengthShort) ∧
    (s.hbpu.mode = .pack → s.hbpu.remain = 0 →
      exec .packEnd s = .next { s with hbpu := { s.hbpu with mode := .idle, done := true } })

/-- When PACK_END commits, no bit waits in the accumulator (42_pack.md §3: "When PACK_END commits, ACCN = 0 and
ACC = 0"). -/
def Obligations.PackEndLeavesNoBitWaiting : Prop :=
  ∀ s t : State, Inv s → s.hbpu.mode = .pack → exec .packEnd s = .next t → t.hbpu.mode = .idle →
    t.hbpu.accn = 0 ∧ t.hbpu.acc = 0 ∧ t.hbpu.out = s.hbpu.out

/-- The split of a payload into commands does not show (42_pack.md §3: "The output depends only on the concatenated
payload"): one PACK_BITS is two with the bits divided, and PACK_SYM is PACK_BITS of one bit. -/
def Obligations.SplitOfPushesDoesNotShow : Prop :=
  (∀ (s : State) (m n : BitVec 6), s.hbpu.mode = .pack → 1 ≤ m.toNat → 1 ≤ n.toNat → m.toNat + n.toNat ≤ 32 →
    m.toNat + n.toNat ≤ s.hbpu.remain.toNat →
    (s.hbpu.accn.toNat + (m.toNat + n.toNat)) / 8 ≤ s.cfg.outDepth - s.hbpu.out.length →
    ∃ u v : State,
      exec (.packBits m) { s with hbpu := { s.hbpu with arg := s.hbpu.arg >>> n.toNat } } = .next u ∧
      exec (.packBits n) { u with hbpu := { u.hbpu with arg := s.hbpu.arg } } = .next v ∧
      exec (.packBits (m + n)) s = .next v) ∧
  ∀ s : State, s.hbpu.mode = .pack → exec (.packSym (if s.hbpu.arg.getLsbD 0 then 0x31 else 0x30)) s = exec (.packBits 1) s

/-- Correctness of pack (42_pack.md §3: "the sequence of all bytes appended to OUT in the session is the packed file
of P"): whatever instructions run between an accepted PACK_START and a committed PACK_END, if none abandons or ends the
session, the bytes drained and those left in OUT are the packed file of the bits pushed, and their number is L. -/
def Obligations.PackSessionMakesThePackedFile : Prop :=
  ∀ (s t u : State) (x : Session) (is : List Instr),
    exec .packStart s = .next t → s.hbpu.mode = .idle → t.hbpu.mode = .pack →
    (∀ i ∈ is, staysInSession i = true) →
    Session.run is { st := t, pushed := [], fed := [], drained := [] } = some x →
    exec .packEnd x.st = .next u → u.hbpu.mode = .idle →
      x.pushed.length = s.hbpu.arg.toNat ∧ x.drained ++ u.hbpu.out = packedFile x.pushed

/-- A packed file of L bits has L / 8 + 1 bytes and its first byte is not 0x00 (20_memory.md §3, 43_unpack_decode.md
§4), and it spells the padded string MSB-first. -/
def Obligations.PackedFileShape : Prop :=
  ∀ p : List Bool, (packedFile p).length = p.length / 8 + 1 ∧ (packedFile p).head? ≠ some 0 ∧
    (packedFile p).flatMap bits8 = paddedBits p

/-! ## Unpack and decode -/

/-- R171: the payload bits of a first byte that is not 0x00 are those below its highest 1, which is what stands after
the first '1' of its bit string. -/
def Obligations.FirstBytePayload : Prop :=
  ∀ (b : Byte) (pad : PadMode), b ≠ 0 → ∃ h : Nat, h < 8 ∧ b.getLsbD h = true ∧
    (∀ j, h < j → j < 8 → b.getLsbD j = false) ∧
    byteBits true pad b = some ((List.range h).map (fun k => b.getLsbD (h - 1 - k)), false) ∧
    byteBits true pad b = some (afterFirstOne (bits8 b), false)

/-- R172, R173: a first byte 0x00 is MALFORMED_PADDING under STRICT and gives no bits under COMPAT, where MALPAD is to
be set; a later byte gives all its eight bits, bit 7 first, under either. -/
def Obligations.MalformedAndLaterBytes : Prop :=
  byteBits true .strict 0 = none ∧ byteBits true .compat 0 = some ([], true) ∧
  (∀ (pad : PadMode) (b : Byte), byteBits false pad b = some
    ([b.getLsbD 7, b.getLsbD 6, b.getLsbD 5, b.getLsbD 4, b.getLsbD 3, b.getLsbD 2, b.getLsbD 1, b.getLsbD 0], false)) ∧
  (∀ s : State, s.hbpu.mode = .unpack → s.hbpu.first = true → s.hbpu.padmode = .strict →
    FailsWith (.unpackByte 0) s .malformedPadding) ∧
  (∀ s : State, s.hbpu.mode = .unpack → s.hbpu.first = true → s.hbpu.padmode = .compat →
    exec (.unpackByte 0) s = .next { s with hbpu := { s.hbpu with first := false, malpad := true } })

/-- R175: WalkBit, with the tree RAM's entries read where the rule reads them: TREE_FAULT at a leaf, a character and
the root at a leaf reached, the child otherwise. -/
def Obligations.WalkBitMovesOneEdge : Prop :=
  ∀ (m : Memory) (root : Index) (b : Bool) (x : Walk) (n : Word), m.read x.node = some n →
    (n.getLsbD 31 = true → walkBit m root b x = .error .atLeaf) ∧
    (n.getLsbD 31 = false → ∀ c : Word,
      m.read (if b then n.extractLsb' 8 8 else n.extractLsb' 0 8) = some c →
        (c.getLsbD 31 = true → ∃ ch : Byte, ch.toNat = c.toNat % 128 ∧
          walkBit m root b x = .ok { node := root, inCode := false, out := x.out ++ [ch] }) ∧
        (c.getLsbD 31 = false → walkBit m root b x = .ok
          { node := if b then n.extractLsb' 8 8 else n.extractLsb' 0 8, inCode := true, out := x.out }))

/-- R177: UNPACK_START, all its cases. -/
def Obligations.UnpackStartOpensTheSession : Prop :=
  ∀ (s : State) (m : UMode),
    decode (.cmd 0x70000000) = .ok (.unpackStart .raw) ∧ decode (.cmd 0x70000001) = .ok (.unpackStart .decode) ∧
    (s.hbpu.mode ≠ .idle → RejectsWith (.unpackStart m) s .badMode) ∧
    (s.hbpu.mode = .idle → s.hbpu.out ≠ [] → RejectsWith (.unpackStart m) s .notDrained) ∧
    (s.hbpu.mode = .idle → s.hbpu.out = [] →
      exec (.unpackStart m) s = .next { s with hbpu := { s.hbpu with
        mode := .unpack, umode := m, first := true, walk := s.hbpu.root, inCode := false
        done := false, trunc := false, malpad := false } })

/-- R178 with R176, RAW mode, all its cases: the payload bits of the byte leave as symbol bytes, or the byte is
rejected whole. -/
def Obligations.UnpackByteRaw : Prop :=
  ∀ (s : State) (b : Byte), decode (.cmd (0x80000000 ||| b.setWidth 32)) = .ok (.unpackByte b) ∧
    (s.hbpu.mode ≠ .unpack → RejectsWith (.unpackByte b) s .badMode) ∧
    (s.hbpu.mode = .unpack → byteBits s.hbpu.first s.hbpu.padmode b = none →
      FailsWith (.unpackByte b) s .malformedPadding) ∧
    (∀ bits dropped, s.hbpu.mode = .unpack → s.hbpu.umode = .raw →
      byteBits s.hbpu.first s.hbpu.padmode b = some (bits, dropped) →
      (s.cfg.outDepth - s.hbpu.out.length < bits.length → RejectsWith (.unpackByte b) s .outFull) ∧
      (bits.length ≤ s.cfg.outDepth - s.hbpu.out.length →
        exec (.unpackByte b) s = .next { s with hbpu := { s.hbpu with
          out := s.hbpu.out ++ bits.map (fun x => if x then 0x31 else 0x30)
          first := false, malpad := s.hbpu.malpad || dropped } }))

/-- R178, DECODE mode, all its cases: the payload bits walk the tree (R175) from WALK and PARTIAL, a fatal stop wins
over OUT_FULL, a read of an entry never written faults, and a byte that does not fit is rejected whole. -/
def Obligations.UnpackByteDecode : Prop :=
  ∀ (s : State) (b : Byte) (bits : List Bool) (dropped : Bool), s.hbpu.mode = .unpack → s.hbpu.umode = .decode →
    byteBits s.hbpu.first s.hbpu.padmode b = some (bits, dropped) →
    (walkBits s.hbpu.tree s.hbpu.root bits { node := s.hbpu.walk, inCode := s.hbpu.inCode, out := [] } =
      .error .atLeaf → FailsWith (.unpackByte b) s .treeFault) ∧
    (∀ i, walkBits s.hbpu.tree s.hbpu.root bits { node := s.hbpu.walk, inCode := s.hbpu.inCode, out := [] } =
      .error (.unwritten i) → exec (.unpackByte b) s = .fault (.treeUnwritten i)) ∧
    (∀ x, walkBits s.hbpu.tree s.hbpu.root bits { node := s.hbpu.walk, inCode := s.hbpu.inCode, out := [] } = .ok x →
      x.out.length ≤ bits.length ∧ (∀ c ∈ x.out, c.toNat < 128) ∧
      (s.cfg.outDepth - s.hbpu.out.length < x.out.length → RejectsWith (.unpackByte b) s .outFull) ∧
      (x.out.length ≤ s.cfg.outDepth - s.hbpu.out.length →
        exec (.unpackByte b) s = .next { s with hbpu := { s.hbpu with
          out := s.hbpu.out ++ x.out, walk := x.node, inCode := x.inCode, first := false
          malpad := s.hbpu.malpad || dropped } }))

/-- R179: UNPACK_END, all its cases: truncation is no error. -/
def Obligations.UnpackEndReportsTruncation : Prop :=
  ∀ s : State, decode (.cmd 0x90000000) = .ok .unpackEnd ∧
    (s.hbpu.mode ≠ .unpack → RejectsWith .unpackEnd s .badMode) ∧
    (s.hbpu.mode = .unpack → s.hbpu.first = true → FailsWith .unpackEnd s .emptyInput) ∧
    (s.hbpu.mode = .unpack → s.hbpu.first = false →
      exec .unpackEnd s = .next { s with hbpu := { s.hbpu with
        trunc := (s.hbpu.umode == .decode && s.hbpu.inCode) || s.hbpu.trunc, mode := .idle, done := true } })

/-- R103, R249: WR CTRL sets PADMODE from bit 0 in every mode and changes nothing else; a first byte is processed under
the PADMODE as it then stands, and after it PADMODE has no effect on UNPACK_BYTE. -/
def Obligations.PadmodeIsSampledAtTheFirstByte : Prop :=
  ∀ (s : State) (d : Word),
    decode (Code.ofDescriptor 0x1004 d) = .ok (.wrCtrl d) ∧
    exec (.wrCtrl d) s =
      .next { s with hbpu := { s.hbpu with padmode := if d.getLsbD 0 then .compat else .strict } } ∧
    (s.hbpu.mode = .unpack → s.hbpu.first = true → ∀ t, exec (.wrCtrl d) s = .next t →
      (d.getLsbD 0 = false → FailsWith (.unpackByte 0) t .malformedPadding) ∧
      (d.getLsbD 0 = true →
        exec (.unpackByte 0) t = .next { t with hbpu := { t.hbpu with first := false, malpad := true } })) ∧
    (∀ (b : Byte) (pad : PadMode) (u : State), s.hbpu.first = false → exec (.unpackByte b) s = .next u →
      exec (.unpackByte b) { s with hbpu := { s.hbpu with padmode := pad } } =
        .next { u with hbpu := { u.hbpu with padmode := pad } })

/-- TREE_FAULT happens exactly when a DECODE session consumes a payload bit while TREE[ROOT] is a leaf
(43_unpack_decode.md §4, the sentence that begins "TREE_FAULT happens exactly when"). -/
def Obligations.TreeFaultExactlyUnderALeafRoot : Prop :=
  ∀ (s : State) (b : Byte) (x : Bool) (xs : List Bool) (dropped : Bool) (n : Word), Inv s → s.hbpu.mode = .unpack →
    s.hbpu.umode = .decode → byteBits s.hbpu.first s.hbpu.padmode b = some (x :: xs, dropped) →
    s.hbpu.tree.read s.hbpu.root = some n →
      (FailsWith (.unpackByte b) s .treeFault ↔ nodeIsLeaf n = true)

/-- Correctness of RAW unpack (43_unpack_decode.md §4: "the bytes appended to OUT are the symbols of the source's
`unpack(F)`"): between an accepted UNPACK_START and a committed UNPACK_END, with nothing abandoning or ending the
session in between, the bytes drained and those left are the symbols of the payload of the bytes fed; MALPAD tells
which reading of a first byte 0x00 was taken. -/
def Obligations.RawSessionGivesTheSymbols : Prop :=
  ∀ (s t u : State) (x : Session) (is : List Instr),
    exec (.unpackStart .raw) s = .next t → s.hbpu.mode = .idle → t.hbpu.mode = .unpack →
    (∀ i ∈ is, staysInSession i = true) →
    Session.run is { st := t, pushed := [], fed := [], drained := [] } = some x →
    exec .unpackEnd x.st = .next u → u.hbpu.mode = .idle →
      ∃ bits, unpackedBits (if u.hbpu.malpad then .compat else .strict) x.fed = some bits ∧
        x.drained ++ u.hbpu.out = bits.map (fun b => if b then 0x31 else 0x30) ∧
        (u.hbpu.malpad = true ↔ x.fed.head? = some 0) ∧ u.hbpu.trunc = false

/-- Correctness of DECODE (43_unpack_decode.md §4: "a DECODE session emits exactly the characters of the source's Decode
walk over `unpack(F)` from that root, in order"): with a tree held from ROOT, the session's bytes are that walk's
characters, and TRUNC is 1 exactly when the walk ends inside a code. -/
def Obligations.DecodeSessionGivesTheText : Prop :=
  ∀ (s t u : State) (x : Session) (is : List Instr) (l r : HuffTree),
    (HuffTree.node l r).heldAt s.hbpu.tree s.hbpu.root →
    exec (.unpackStart .decode) s = .next t → s.hbpu.mode = .idle → t.hbpu.mode = .unpack →
    (∀ i ∈ is, staysInSession i = true) →
    Session.run is { st := t, pushed := [], fed := [], drained := [] } = some x →
    exec .unpackEnd x.st = .next u → u.hbpu.mode = .idle →
      ∃ bits, unpackedBits (if u.hbpu.malpad then .compat else .strict) x.fed = some bits ∧
        x.drained ++ u.hbpu.out = (sourceDecode (.node l r) (.node l r) false bits).1 ∧
        u.hbpu.trunc = (sourceDecode (.node l r) (.node l r) false bits).2

/-- Round trip (43_unpack_decode.md §4: "`unpack(pack(bits)) == bits` exactly"), under either PADMODE and for every
payload, the empty one included (90_conflicts.md C1). -/
def Obligations.UnpackOfPackIsThePayload : Prop :=
  ∀ (pad : PadMode) (p : List Bool), unpackedBits pad (packedFile p) = some p

/-- Decoding the concatenated root-to-leaf paths of a text gives the text and no truncation (43_unpack_decode.md §4:
"a DECODE session of F emits the text with TRUNC = 0"). -/
def Obligations.DecodeOfCodesIsTheText : Prop :=
  ∀ (l r : HuffTree) (text : List (List Bool × BitVec 7)),
    (∀ e ∈ text, (HuffTree.node l r).leafAt e.1 = some e.2) →
    sourceDecode (.node l r) (.node l r) false (text.flatMap (fun e => e.1)) =
      (text.map (fun e => e.2.setWidth 8), false)

/-! ## Errors and whole-machine rules -/

/-- R214, R215: whatever instruction changes ERR, either it is ABORT or SOFT_RESET and clears it, or it is a rejection
(ERR was 0, and nothing else changes), or a fatal error (ERR, MODE and OUT change, and nothing else). -/
def Obligations.ErrorsChangeNothingElse : Prop :=
  ∀ (i : Instr) (s t : State), exec i s = .next t → t.hbpu.err ≠ s.hbpu.err →
    ((plain i = .abort ∨ plain i = .softReset) ∧ t.hbpu.err = .none) ∨
    (t.hbpu.err.fatal = false ∧ s.hbpu.err = .none ∧ t = { s with hbpu := { s.hbpu with err := t.hbpu.err } }) ∨
    (t.hbpu.err.fatal = true ∧ (s.hbpu.mode = .pack ∨ s.hbpu.mode = .unpack) ∧
      t = { s with hbpu := { s.hbpu with err := t.hbpu.err, mode := .error, out := [] } })

/-- R24: only the listed commands, and the reset input, change MODE, each along its arrow. -/
def Obligations.ModeChangesOnlyAlongTheArrows : Prop :=
  (∀ (i : Instr) (s t : State), exec i s = .next t → t.hbpu.mode ≠ s.hbpu.mode →
    (plain i = .packStart ∧ s.hbpu.mode = .idle ∧ t.hbpu.mode = .pack) ∨
    (plain i = .packEnd ∧ s.hbpu.mode = .pack ∧ t.hbpu.mode = .idle) ∨
    ((∃ m, plain i = .unpackStart m) ∧ s.hbpu.mode = .idle ∧ t.hbpu.mode = .unpack) ∨
    (plain i = .unpackEnd ∧ s.hbpu.mode = .unpack ∧ t.hbpu.mode = .idle) ∨
    (t.hbpu.err.fatal = true ∧ (s.hbpu.mode = .pack ∨ s.hbpu.mode = .unpack) ∧ t.hbpu.mode = .error) ∨
    ((plain i = .abort ∨ plain i = .softReset) ∧ t.hbpu.mode = .idle)) ∧
  ∀ (s t : State) (rest : List HostEvent), s.bus = .reset :: rest → step s = .next t → t.hbpu.mode = .idle

/-- In ERROR a command other than NOP, SOFT_RESET, ABORT and TREE_READ changes nothing at all: it is rejected with
BAD_MODE and ERR keeps the fatal code (60_exceptions.md §3: "ERR keeps the fatal code, because a rejection writes ERR
only when ERR = 0"). -/
def Obligations.ErrorModeKeepsTheFatalCode : Prop :=
  ∀ (i : Instr) (s : State), Inv s → s.hbpu.mode = .error → isCommand i = true → i ≠ .nop → i ≠ .softReset →
    i ≠ .abort → (∀ idx, i ≠ .treeRead idx) → exec i s = .next s

/-- No command is rejected with OUT_FULL when OUT is empty, whatever ERR still holds (70_reset_and_hazards.md §3: "No
command can be rejected with OUT_FULL when OUT is empty"): a next state has ERR = OUT_FULL only where ERR held it
before, and a PACK_BITS, PACK_SYM or UNPACK_BYTE that meets no other check completes, so that a retry after a drain
makes progress. -/
def Obligations.EmptyOutIsNeverFull : Prop :=
  ∀ s : State, s.cfg.legal → s.hbpu.out = [] →
    (∀ (i : Instr) (t : State), exec i s = .next t → t.hbpu.err = .outFull → s.hbpu.err = .outFull) ∧
    (∀ n : BitVec 6, s.hbpu.mode = .pack → 1 ≤ n.toNat → n.toNat ≤ 32 → n.toNat ≤ s.hbpu.remain.toNat →
      exec (.packBits n) s = .next { s with
        hbpu := (List.range n.toNat).foldl (fun h k => h.pushBit (s.hbpu.arg.getLsbD (n.toNat - 1 - k))) s.hbpu }) ∧
    (∀ y : Byte, s.hbpu.mode = .pack → (y = 0x30 ∨ y = 0x31) → s.hbpu.remain ≠ 0 →
      exec (.packSym y) s = .next { s with hbpu := s.hbpu.pushBit (y == 0x31) }) ∧
    (∀ (b : Byte) (bits : List Bool) (dropped : Bool), s.hbpu.mode = .unpack →
      byteBits s.hbpu.first s.hbpu.padmode b = some (bits, dropped) →
      (s.hbpu.umode = .raw →
        exec (.unpackByte b) s = .next { s with hbpu := { s.hbpu with
          out := bits.map (fun x => if x then 0x31 else 0x30)
          first := false, malpad := s.hbpu.malpad || dropped } }) ∧
      (∀ x : Walk, s.hbpu.umode = .decode →
        walkBits s.hbpu.tree s.hbpu.root bits { node := s.hbpu.walk, inCode := s.hbpu.inCode, out := [] } = .ok x →
        exec (.unpackByte b) s = .next { s with hbpu := { s.hbpu with
          out := x.out, walk := x.node, inCode := x.inCode, first := false
          malpad := s.hbpu.malpad || dropped } }))

/-- R248: outside IDLE, TREE_WRITE and SET_ROOT are BAD_MODE, and no instruction changes TREE; only SOFT_RESET, which
ends the session, changes ROOT. -/
def Obligations.TreeIsFixedOutsideIdle : Prop :=
  ∀ s : State, s.hbpu.mode ≠ .idle →
    (∀ idx, RejectsWith (.treeWrite idx) s .badMode ∧ RejectsWith (.setRoot idx) s .badMode) ∧
    ∀ (i : Instr) (t : State), exec i s = .next t →
      t.hbpu.tree = s.hbpu.tree ∧ (plain i ≠ .softReset → t.hbpu.root = s.hbpu.root)

/-- ARG is written only by WR ARG, TREE_READ and SOFT_RESET, and read only by PACK_START, PACK_BITS, TREE_WRITE and
RD ARG: any other instruction does the same whatever ARG holds (10_state.md §2: "No other command reads or writes ARG";
SOFT_RESET clears it by 41_control_tree.md R123). -/
def Obligations.ArgIsReadAndWrittenOnlyByItsUsers : Prop :=
  (∀ (i : Instr) (s t : State), exec i s = .next t → (∀ d, plain i ≠ .wrArg d) → (∀ idx, plain i ≠ .treeRead idx) →
    plain i ≠ .softReset → t.hbpu.arg = s.hbpu.arg) ∧
  (∀ (i : Instr) (s t : State) (a : Word), exec i s = .next t → plain i ≠ .packStart → (∀ n, plain i ≠ .packBits n) →
    (∀ idx, plain i ≠ .treeWrite idx) → plain i ≠ .rdArg →
    ∃ t' : State, exec i { s with hbpu := { s.hbpu with arg := a } } = .next t' ∧
      { t' with hbpu := { t'.hbpu with arg := t.hbpu.arg } } = t)

/-- Nothing stops the machine but a read of a tree entry never written: no instruction is refused, the only fault
names an unwritten entry, and when every entry is written every instruction has a next state (10_state.md R36, 93). -/
def Obligations.OnlyUnwrittenEntriesStop : Prop :=
  ∀ (i : Instr) (s : State),
    (∀ r, exec i s ≠ .refused r) ∧
    (∀ f, exec i s = .fault f → ∃ idx, f = .treeUnwritten idx ∧ s.hbpu.tree.read idx = none) ∧
    (TreeFull s → ∃ t, exec i s = .next t)

/-- An instruction changes neither the parameters nor the host's queue and only appends to the host's replies, one word
for a read and none for anything else; these fields are the model's own (logs 1, 2, 3). -/
def Obligations.InstructionsKeepTheHostSide : Prop :=
  ∀ (i : Instr) (s t : State), exec i s = .next t →
    t.cfg = s.cfg ∧ t.bus = s.bus ∧ ∃ rs : List Word, t.replies = s.replies ++ rs ∧
      ((∃ o, encode i = .rd o) → rs.length = 1) ∧ ((∀ o, encode i ≠ .rd o) → rs = [])

/-! ## Invariant -/

/-- The invariant holds at reset, for every legal OUT_DEPTH and every HBPU_BASE. -/
def Obligations.InvariantHoldsAtReset : Prop :=
  ∀ c : Config, c.legal → Inv (State.resetWith c)

/-- Every step keeps the invariant, from every state that has it (10_state.md §8). -/
def Obligations.StepKeepsTheInvariant : Prop :=
  ∀ s t : State, Inv s → step s = .next t → Inv t
end

