-- ==== Sys2Proof/Laws/Memory.lean ====
section
/-! SUPPORT. The tree RAM as a list in canonical form (10_state.md R36, 20_memory.md R62): a read after a write, and
that a write keeps the form. -/

namespace Sys2Proof.Machine

/-- The list has the canonical form and every key is at least `lo`: the induction's own form of `Memory.wf`. -/
def Memory.wfFrom : Nat → Memory → Prop
  | _, [] => True
  | lo, (k, _) :: m => lo ≤ k ∧ k < treeNodes ∧ Memory.wfFrom (k + 1) m

theorem Memory.wfFrom_mono : ∀ {m : Memory} {lo lo' : Nat}, lo ≤ lo' → Memory.wfFrom lo' m → Memory.wfFrom lo m
  | [], _, _, _, _ => trivial
  | _ :: _, _, _, h, ⟨a, b, c⟩ => ⟨Nat.le_trans h a, b, c⟩

theorem Memory.wf_iff_wfFrom (m : Memory) : Memory.wf m = true ↔ Memory.wfFrom 0 m := by
  suffices h : ∀ (m : Memory) (k : Nat) (v : Word),
      Memory.wf ((k, v) :: m) = true ↔ Memory.wfFrom k ((k, v) :: m) by
    cases m with
    | nil => simp [Memory.wf, Memory.wfFrom]
    | cons e m =>
      rw [show e = (e.1, e.2) from rfl, h]
      simp [Memory.wfFrom]
  intro m
  induction m with
  | nil => intro k v; simp [Memory.wf, Memory.wfFrom]
  | cons e m ih =>
    obtain ⟨k', v'⟩ := e
    intro k v
    rw [Memory.wf, Bool.and_eq_true, decide_eq_true_eq, ih k' v']
    simp only [Memory.wfFrom]
    constructor
    · rintro ⟨h1, h2, h3, h4⟩; exact ⟨Nat.le_refl _, by omega, h1, h3, h4⟩
    · rintro ⟨-, -, h1, h3, h4⟩; exact ⟨h1, Nat.le_refl _, h3, h4⟩

theorem Memory.store_wfFrom (m : Memory) (lo n : Nat) (v : Word) (hn : n < treeNodes) (hlo : lo ≤ n)
    (h : Memory.wfFrom lo m) : Memory.wfFrom lo (Memory.store m n v) := by
  induction m generalizing lo with
  | nil => exact ⟨hlo, hn, trivial⟩
  | cons e m ih =>
    obtain ⟨k, u⟩ := e
    obtain ⟨h1, h2, h3⟩ := h
    unfold Memory.store
    split
    · next hlt => exact ⟨hlo, hn, hlt, h2, h3⟩
    · split
      · next heq => subst heq; exact ⟨hlo, hn, h3⟩
      · exact ⟨h1, h2, ih (k + 1) (by omega) h3⟩

/-- Every write keeps the canonical form. -/
theorem Memory.write_wf (m : Memory) (i : Index) (v : Word) (h : Memory.wf m = true) :
    Memory.wf (m.write i v) = true := by
  rw [Memory.wf_iff_wfFrom] at *
  exact Memory.store_wfFrom m 0 _ v i.isLt (Nat.zero_le _) h

theorem Memory.find_store_same (m : Memory) (n : Nat) (v : Word) : Memory.find (Memory.store m n v) n = some v := by
  induction m with
  | nil => simp [Memory.store, Memory.find]
  | cons e m ih =>
    obtain ⟨k, u⟩ := e
    unfold Memory.store
    split
    · simp [Memory.find]
    · split
      · simp [Memory.find]
      · next h => rw [Memory.find, if_neg (Ne.symm h), ih]

theorem Memory.find_of_wfFrom_lt (m : Memory) (lo n : Nat) (hn : n < lo) (h : Memory.wfFrom lo m) :
    Memory.find m n = none := by
  induction m generalizing lo with
  | nil => rfl
  | cons e m ih =>
    obtain ⟨k, u⟩ := e
    obtain ⟨h1, -, h3⟩ := h
    rw [Memory.find, if_neg (by omega)]
    exact ih (k + 1) (by omega) h3

theorem Memory.find_store_other (m : Memory) (n k : Nat) (v : Word) (hk : k ≠ n) :
    Memory.find (Memory.store m n v) k = Memory.find m k := by
  induction m with
  | nil => simp [Memory.store, Memory.find, Ne.symm hk]
  | cons e m ih =>
    obtain ⟨j, u⟩ := e
    unfold Memory.store
    split
    · rw [Memory.find, if_neg (Ne.symm hk)]
    · split
      · next h => subst h; simp [Memory.find, Ne.symm hk]
      · simp only [Memory.find, ih]

/-- Every stored word is one that was there or the one written. -/
theorem Memory.mem_store (m : Memory) (n : Nat) (v : Word) (e : Nat × Word) (h : e ∈ Memory.store m n v) :
    e = (n, v) ∨ e ∈ m := by
  induction m with
  | nil => exact Or.inl (by simpa [Memory.store] using h)
  | cons a m ih =>
    obtain ⟨k, u⟩ := a
    unfold Memory.store at h
    split at h
    · simpa using h
    · split at h
      · rcases List.mem_cons.1 h with h | h
        · exact .inl h
        · exact .inr (List.mem_cons_of_mem _ h)
      · rcases List.mem_cons.1 h with h | h
        · exact .inr (h ▸ List.mem_cons_self)
        · exact (ih h).imp_right (List.mem_cons_of_mem _)

/-- A word that is read is listed. -/
theorem Memory.mem_of_find (m : Memory) (n : Nat) (v : Word) (h : Memory.find m n = some v) : (n, v) ∈ m := by
  induction m with
  | nil => simp [Memory.find, Memory.unlisted] at h
  | cons e m ih =>
    obtain ⟨k, u⟩ := e
    rw [Memory.find] at h
    split at h
    · next hk => subst hk; simp_all
    · exact List.mem_cons_of_mem _ (ih h)

/-- The empty tree RAM holds TREE_INIT everywhere. -/
@[simp] theorem Memory.read_nil (i : Index) : Memory.read [] i = none := rfl

end Sys2Proof.Machine
end

