-- ==== Sys2Proof/Laws/State.lean ====
section
/-! SUPPORT. One lemma per field per named update of the state: what each shared operation leaves in every field. -/

namespace Sys2Proof.Machine

/-! ## reject: only ERR (60_exceptions.md R214) -/

@[simp] theorem Hbpu.reject_padmode (h : Hbpu) (c : ErrCode) : (h.reject c).padmode = h.padmode := by
  unfold Hbpu.reject; split <;> rfl
@[simp] theorem Hbpu.reject_arg (h : Hbpu) (c : ErrCode) : (h.reject c).arg = h.arg := by
  unfold Hbpu.reject; split <;> rfl
@[simp] theorem Hbpu.reject_mode (h : Hbpu) (c : ErrCode) : (h.reject c).mode = h.mode := by
  unfold Hbpu.reject; split <;> rfl
@[simp] theorem Hbpu.reject_umode (h : Hbpu) (c : ErrCode) : (h.reject c).umode = h.umode := by
  unfold Hbpu.reject; split <;> rfl
@[simp] theorem Hbpu.reject_first (h : Hbpu) (c : ErrCode) : (h.reject c).first = h.first := by
  unfold Hbpu.reject; split <;> rfl
@[simp] theorem Hbpu.reject_done (h : Hbpu) (c : ErrCode) : (h.reject c).done = h.done := by
  unfold Hbpu.reject; split <;> rfl
@[simp] theorem Hbpu.reject_trunc (h : Hbpu) (c : ErrCode) : (h.reject c).trunc = h.trunc := by
  unfold Hbpu.reject; split <;> rfl
@[simp] theorem Hbpu.reject_malpad (h : Hbpu) (c : ErrCode) : (h.reject c).malpad = h.malpad := by
  unfold Hbpu.reject; split <;> rfl
@[simp] theorem Hbpu.reject_inCode (h : Hbpu) (c : ErrCode) : (h.reject c).inCode = h.inCode := by
  unfold Hbpu.reject; split <;> rfl
@[simp] theorem Hbpu.reject_acc (h : Hbpu) (c : ErrCode) : (h.reject c).acc = h.acc := by
  unfold Hbpu.reject; split <;> rfl
@[simp] theorem Hbpu.reject_accn (h : Hbpu) (c : ErrCode) : (h.reject c).accn = h.accn := by
  unfold Hbpu.reject; split <;> rfl
@[simp] theorem Hbpu.reject_remain (h : Hbpu) (c : ErrCode) : (h.reject c).remain = h.remain := by
  unfold Hbpu.reject; split <;> rfl
@[simp] theorem Hbpu.reject_root (h : Hbpu) (c : ErrCode) : (h.reject c).root = h.root := by
  unfold Hbpu.reject; split <;> rfl
@[simp] theorem Hbpu.reject_walk (h : Hbpu) (c : ErrCode) : (h.reject c).walk = h.walk := by
  unfold Hbpu.reject; split <;> rfl
@[simp] theorem Hbpu.reject_tree (h : Hbpu) (c : ErrCode) : (h.reject c).tree = h.tree := by
  unfold Hbpu.reject; split <;> rfl
@[simp] theorem Hbpu.reject_out (h : Hbpu) (c : ErrCode) : (h.reject c).out = h.out := by
  unfold Hbpu.reject; split <;> rfl
@[simp] theorem Hbpu.reject_err (h : Hbpu) (c : ErrCode) : (h.reject c).err = if h.err = .none then c else h.err := by
  unfold Hbpu.reject; split <;> rfl

/-- `reject` as one record update. -/
theorem Hbpu.reject_eq (h : Hbpu) (c : ErrCode) :
    h.reject c = { h with err := if h.err = .none then c else h.err } := by
  unfold Hbpu.reject; split <;> rfl

/-- A rejection after a rejection leaves everything as it is (10_state.md R26). -/
theorem Hbpu.reject_of_err (h : Hbpu) (c : ErrCode) (e : h.err ≠ .none) : h.reject c = h := if_neg e

/-! ## fail: ERR, MODE and OUT (60_exceptions.md R215) -/

@[simp] theorem Hbpu.fail_padmode (h : Hbpu) (c : ErrCode) : (h.fail c).padmode = h.padmode := rfl
@[simp] theorem Hbpu.fail_arg (h : Hbpu) (c : ErrCode) : (h.fail c).arg = h.arg := rfl
@[simp] theorem Hbpu.fail_mode (h : Hbpu) (c : ErrCode) : (h.fail c).mode = .error := rfl
@[simp] theorem Hbpu.fail_umode (h : Hbpu) (c : ErrCode) : (h.fail c).umode = h.umode := rfl
@[simp] theorem Hbpu.fail_first (h : Hbpu) (c : ErrCode) : (h.fail c).first = h.first := rfl
@[simp] theorem Hbpu.fail_done (h : Hbpu) (c : ErrCode) : (h.fail c).done = h.done := rfl
@[simp] theorem Hbpu.fail_trunc (h : Hbpu) (c : ErrCode) : (h.fail c).trunc = h.trunc := rfl
@[simp] theorem Hbpu.fail_malpad (h : Hbpu) (c : ErrCode) : (h.fail c).malpad = h.malpad := rfl
@[simp] theorem Hbpu.fail_inCode (h : Hbpu) (c : ErrCode) : (h.fail c).inCode = h.inCode := rfl
@[simp] theorem Hbpu.fail_err (h : Hbpu) (c : ErrCode) : (h.fail c).err = c := rfl
@[simp] theorem Hbpu.fail_acc (h : Hbpu) (c : ErrCode) : (h.fail c).acc = h.acc := rfl
@[simp] theorem Hbpu.fail_accn (h : Hbpu) (c : ErrCode) : (h.fail c).accn = h.accn := rfl
@[simp] theorem Hbpu.fail_remain (h : Hbpu) (c : ErrCode) : (h.fail c).remain = h.remain := rfl
@[simp] theorem Hbpu.fail_root (h : Hbpu) (c : ErrCode) : (h.fail c).root = h.root := rfl
@[simp] theorem Hbpu.fail_walk (h : Hbpu) (c : ErrCode) : (h.fail c).walk = h.walk := rfl
@[simp] theorem Hbpu.fail_tree (h : Hbpu) (c : ErrCode) : (h.fail c).tree = h.tree := rfl
@[simp] theorem Hbpu.fail_out (h : Hbpu) (c : ErrCode) : (h.fail c).out = [] := rfl

/-! ## ClearSession (41_control_tree.md R121) -/

@[simp] theorem Hbpu.clearSession_padmode (h : Hbpu) : h.clearSession.padmode = h.padmode := rfl
@[simp] theorem Hbpu.clearSession_arg (h : Hbpu) : h.clearSession.arg = h.arg := rfl
@[simp] theorem Hbpu.clearSession_mode (h : Hbpu) : h.clearSession.mode = .idle := rfl
@[simp] theorem Hbpu.clearSession_umode (h : Hbpu) : h.clearSession.umode = .raw := rfl
@[simp] theorem Hbpu.clearSession_first (h : Hbpu) : h.clearSession.first = false := rfl
@[simp] theorem Hbpu.clearSession_done (h : Hbpu) : h.clearSession.done = false := rfl
@[simp] theorem Hbpu.clearSession_trunc (h : Hbpu) : h.clearSession.trunc = false := rfl
@[simp] theorem Hbpu.clearSession_malpad (h : Hbpu) : h.clearSession.malpad = false := rfl
@[simp] theorem Hbpu.clearSession_inCode (h : Hbpu) : h.clearSession.inCode = false := rfl
@[simp] theorem Hbpu.clearSession_err (h : Hbpu) : h.clearSession.err = .none := rfl
@[simp] theorem Hbpu.clearSession_acc (h : Hbpu) : h.clearSession.acc = 0 := rfl
@[simp] theorem Hbpu.clearSession_accn (h : Hbpu) : h.clearSession.accn = 0 := rfl
@[simp] theorem Hbpu.clearSession_remain (h : Hbpu) : h.clearSession.remain = 0 := rfl
@[simp] theorem Hbpu.clearSession_root (h : Hbpu) : h.clearSession.root = h.root := rfl
@[simp] theorem Hbpu.clearSession_walk (h : Hbpu) : h.clearSession.walk = h.root := rfl
@[simp] theorem Hbpu.clearSession_tree (h : Hbpu) : h.clearSession.tree = h.tree := rfl
@[simp] theorem Hbpu.clearSession_out (h : Hbpu) : h.clearSession.out = [] := rfl

/-! ## PushBit (42_pack.md R143): the fields it does not touch, and REMAIN -/

@[simp] theorem Hbpu.pushBit_padmode (h : Hbpu) (b : Bool) : (h.pushBit b).padmode = h.padmode := by
  unfold Hbpu.pushBit; dsimp only; split <;> rfl
@[simp] theorem Hbpu.pushBit_arg (h : Hbpu) (b : Bool) : (h.pushBit b).arg = h.arg := by
  unfold Hbpu.pushBit; dsimp only; split <;> rfl
@[simp] theorem Hbpu.pushBit_mode (h : Hbpu) (b : Bool) : (h.pushBit b).mode = h.mode := by
  unfold Hbpu.pushBit; dsimp only; split <;> rfl
@[simp] theorem Hbpu.pushBit_umode (h : Hbpu) (b : Bool) : (h.pushBit b).umode = h.umode := by
  unfold Hbpu.pushBit; dsimp only; split <;> rfl
@[simp] theorem Hbpu.pushBit_first (h : Hbpu) (b : Bool) : (h.pushBit b).first = h.first := by
  unfold Hbpu.pushBit; dsimp only; split <;> rfl
@[simp] theorem Hbpu.pushBit_done (h : Hbpu) (b : Bool) : (h.pushBit b).done = h.done := by
  unfold Hbpu.pushBit; dsimp only; split <;> rfl
@[simp] theorem Hbpu.pushBit_trunc (h : Hbpu) (b : Bool) : (h.pushBit b).trunc = h.trunc := by
  unfold Hbpu.pushBit; dsimp only; split <;> rfl
@[simp] theorem Hbpu.pushBit_malpad (h : Hbpu) (b : Bool) : (h.pushBit b).malpad = h.malpad := by
  unfold Hbpu.pushBit; dsimp only; split <;> rfl
@[simp] theorem Hbpu.pushBit_inCode (h : Hbpu) (b : Bool) : (h.pushBit b).inCode = h.inCode := by
  unfold Hbpu.pushBit; dsimp only; split <;> rfl
@[simp] theorem Hbpu.pushBit_err (h : Hbpu) (b : Bool) : (h.pushBit b).err = h.err := by
  unfold Hbpu.pushBit; dsimp only; split <;> rfl
@[simp] theorem Hbpu.pushBit_remain (h : Hbpu) (b : Bool) : (h.pushBit b).remain = h.remain - 1 := by
  unfold Hbpu.pushBit; dsimp only; split <;> rfl
@[simp] theorem Hbpu.pushBit_root (h : Hbpu) (b : Bool) : (h.pushBit b).root = h.root := by
  unfold Hbpu.pushBit; dsimp only; split <;> rfl
@[simp] theorem Hbpu.pushBit_walk (h : Hbpu) (b : Bool) : (h.pushBit b).walk = h.walk := by
  unfold Hbpu.pushBit; dsimp only; split <;> rfl
@[simp] theorem Hbpu.pushBit_tree (h : Hbpu) (b : Bool) : (h.pushBit b).tree = h.tree := by
  unfold Hbpu.pushBit; dsimp only; split <;> rfl

/-! ## PushBit for a bit string -/

@[simp] theorem Hbpu.pushBits_padmode (bs : List Bool) (h : Hbpu) : (h.pushBits bs).padmode = h.padmode := by
  induction bs generalizing h with
  | nil => rfl
  | cons b bs ih => simp [Hbpu.pushBits, ih]
@[simp] theorem Hbpu.pushBits_arg (bs : List Bool) (h : Hbpu) : (h.pushBits bs).arg = h.arg := by
  induction bs generalizing h with
  | nil => rfl
  | cons b bs ih => simp [Hbpu.pushBits, ih]
@[simp] theorem Hbpu.pushBits_mode (bs : List Bool) (h : Hbpu) : (h.pushBits bs).mode = h.mode := by
  induction bs generalizing h with
  | nil => rfl
  | cons b bs ih => simp [Hbpu.pushBits, ih]
@[simp] theorem Hbpu.pushBits_umode (bs : List Bool) (h : Hbpu) : (h.pushBits bs).umode = h.umode := by
  induction bs generalizing h with
  | nil => rfl
  | cons b bs ih => simp [Hbpu.pushBits, ih]
@[simp] theorem Hbpu.pushBits_first (bs : List Bool) (h : Hbpu) : (h.pushBits bs).first = h.first := by
  induction bs generalizing h with
  | nil => rfl
  | cons b bs ih => simp [Hbpu.pushBits, ih]
@[simp] theorem Hbpu.pushBits_done (bs : List Bool) (h : Hbpu) : (h.pushBits bs).done = h.done := by
  induction bs generalizing h with
  | nil => rfl
  | cons b bs ih => simp [Hbpu.pushBits, ih]
@[simp] theorem Hbpu.pushBits_trunc (bs : List Bool) (h : Hbpu) : (h.pushBits bs).trunc = h.trunc := by
  induction bs generalizing h with
  | nil => rfl
  | cons b bs ih => simp [Hbpu.pushBits, ih]
@[simp] theorem Hbpu.pushBits_malpad (bs : List Bool) (h : Hbpu) : (h.pushBits bs).malpad = h.malpad := by
  induction bs generalizing h with
  | nil => rfl
  | cons b bs ih => simp [Hbpu.pushBits, ih]
@[simp] theorem Hbpu.pushBits_inCode (bs : List Bool) (h : Hbpu) : (h.pushBits bs).inCode = h.inCode := by
  induction bs generalizing h with
  | nil => rfl
  | cons b bs ih => simp [Hbpu.pushBits, ih]
@[simp] theorem Hbpu.pushBits_err (bs : List Bool) (h : Hbpu) : (h.pushBits bs).err = h.err := by
  induction bs generalizing h with
  | nil => rfl
  | cons b bs ih => simp [Hbpu.pushBits, ih]
@[simp] theorem Hbpu.pushBits_root (bs : List Bool) (h : Hbpu) : (h.pushBits bs).root = h.root := by
  induction bs generalizing h with
  | nil => rfl
  | cons b bs ih => simp [Hbpu.pushBits, ih]
@[simp] theorem Hbpu.pushBits_walk (bs : List Bool) (h : Hbpu) : (h.pushBits bs).walk = h.walk := by
  induction bs generalizing h with
  | nil => rfl
  | cons b bs ih => simp [Hbpu.pushBits, ih]
@[simp] theorem Hbpu.pushBits_tree (bs : List Bool) (h : Hbpu) : (h.pushBits bs).tree = h.tree := by
  induction bs generalizing h with
  | nil => rfl
  | cons b bs ih => simp [Hbpu.pushBits, ih]

/-! ## The state PACK_START leaves (42_pack.md R144): the fields it does not touch, and its constants -/

@[simp] theorem Hbpu.openPack_padmode (h : Hbpu) : h.openPack.padmode = h.padmode := by
  unfold Hbpu.openPack; dsimp only; split <;> rfl
@[simp] theorem Hbpu.openPack_arg (h : Hbpu) : h.openPack.arg = h.arg := by
  unfold Hbpu.openPack; dsimp only; split <;> rfl
@[simp] theorem Hbpu.openPack_mode (h : Hbpu) : h.openPack.mode = .pack := by
  unfold Hbpu.openPack; dsimp only; split <;> rfl
@[simp] theorem Hbpu.openPack_umode (h : Hbpu) : h.openPack.umode = h.umode := by
  unfold Hbpu.openPack; dsimp only; split <;> rfl
@[simp] theorem Hbpu.openPack_first (h : Hbpu) : h.openPack.first = h.first := by
  unfold Hbpu.openPack; dsimp only; split <;> rfl
@[simp] theorem Hbpu.openPack_done (h : Hbpu) : h.openPack.done = false := by
  unfold Hbpu.openPack; dsimp only; split <;> rfl
@[simp] theorem Hbpu.openPack_trunc (h : Hbpu) : h.openPack.trunc = false := by
  unfold Hbpu.openPack; dsimp only; split <;> rfl
@[simp] theorem Hbpu.openPack_malpad (h : Hbpu) : h.openPack.malpad = false := by
  unfold Hbpu.openPack; dsimp only; split <;> rfl
@[simp] theorem Hbpu.openPack_inCode (h : Hbpu) : h.openPack.inCode = h.inCode := by
  unfold Hbpu.openPack; dsimp only; split <;> rfl
@[simp] theorem Hbpu.openPack_err (h : Hbpu) : h.openPack.err = h.err := by
  unfold Hbpu.openPack; dsimp only; split <;> rfl
@[simp] theorem Hbpu.openPack_remain (h : Hbpu) : h.openPack.remain = h.arg := by
  unfold Hbpu.openPack; dsimp only; split <;> rfl
@[simp] theorem Hbpu.openPack_root (h : Hbpu) : h.openPack.root = h.root := by
  unfold Hbpu.openPack; dsimp only; split <;> rfl
@[simp] theorem Hbpu.openPack_walk (h : Hbpu) : h.openPack.walk = h.walk := by
  unfold Hbpu.openPack; dsimp only; split <;> rfl
@[simp] theorem Hbpu.openPack_tree (h : Hbpu) : h.openPack.tree = h.tree := by
  unfold Hbpu.openPack; dsimp only; split <;> rfl

/-! ## The state an accepted UNPACK_BYTE leaves (43_unpack_decode.md R178) -/

@[simp] theorem Hbpu.acceptByte_padmode (h : Hbpu) (x : Walk) (d : Bool) : (h.acceptByte x d).padmode = h.padmode := rfl
@[simp] theorem Hbpu.acceptByte_arg (h : Hbpu) (x : Walk) (d : Bool) : (h.acceptByte x d).arg = h.arg := rfl
@[simp] theorem Hbpu.acceptByte_mode (h : Hbpu) (x : Walk) (d : Bool) : (h.acceptByte x d).mode = h.mode := rfl
@[simp] theorem Hbpu.acceptByte_umode (h : Hbpu) (x : Walk) (d : Bool) : (h.acceptByte x d).umode = h.umode := rfl
@[simp] theorem Hbpu.acceptByte_first (h : Hbpu) (x : Walk) (d : Bool) : (h.acceptByte x d).first = false := rfl
@[simp] theorem Hbpu.acceptByte_done (h : Hbpu) (x : Walk) (d : Bool) : (h.acceptByte x d).done = h.done := rfl
@[simp] theorem Hbpu.acceptByte_trunc (h : Hbpu) (x : Walk) (d : Bool) : (h.acceptByte x d).trunc = h.trunc := rfl
@[simp] theorem Hbpu.acceptByte_malpad (h : Hbpu) (x : Walk) (d : Bool) : (h.acceptByte x d).malpad = (h.malpad || d) := rfl
@[simp] theorem Hbpu.acceptByte_inCode (h : Hbpu) (x : Walk) (d : Bool) : (h.acceptByte x d).inCode = x.inCode := rfl
@[simp] theorem Hbpu.acceptByte_err (h : Hbpu) (x : Walk) (d : Bool) : (h.acceptByte x d).err = h.err := rfl
@[simp] theorem Hbpu.acceptByte_acc (h : Hbpu) (x : Walk) (d : Bool) : (h.acceptByte x d).acc = h.acc := rfl
@[simp] theorem Hbpu.acceptByte_accn (h : Hbpu) (x : Walk) (d : Bool) : (h.acceptByte x d).accn = h.accn := rfl
@[simp] theorem Hbpu.acceptByte_remain (h : Hbpu) (x : Walk) (d : Bool) : (h.acceptByte x d).remain = h.remain := rfl
@[simp] theorem Hbpu.acceptByte_root (h : Hbpu) (x : Walk) (d : Bool) : (h.acceptByte x d).root = h.root := rfl
@[simp] theorem Hbpu.acceptByte_walk (h : Hbpu) (x : Walk) (d : Bool) : (h.acceptByte x d).walk = x.node := rfl
@[simp] theorem Hbpu.acceptByte_tree (h : Hbpu) (x : Walk) (d : Bool) : (h.acceptByte x d).tree = h.tree := rfl
@[simp] theorem Hbpu.acceptByte_out (h : Hbpu) (x : Walk) (d : Bool) : (h.acceptByte x d).out = h.out ++ x.out := rfl

/-! ## The reset input and the next access -/

@[simp] theorem takeReset_cfg (s : State) : (takeReset s).cfg = s.cfg := rfl
@[simp] theorem takeReset_hbpu (s : State) : (takeReset s).hbpu = Hbpu.reset := rfl
@[simp] theorem takeReset_bus (s : State) : (takeReset s).bus = s.bus := rfl
@[simp] theorem takeReset_replies (s : State) : (takeReset s).replies = s.replies := rfl
@[simp] theorem State.withFetchWord_cfg (s : State) (n w : Nat) : (s.withFetchWord n w).cfg = s.cfg := rfl
@[simp] theorem State.withFetchWord_hbpu (s : State) (n w : Nat) : (s.withFetchWord n w).hbpu = s.hbpu := rfl
@[simp] theorem State.withFetchWord_bus (s : State) (n w : Nat) : (s.withFetchWord n w).bus = tableEvent s.cfg n w :: s.bus := rfl
@[simp] theorem State.withFetchWord_replies (s : State) (n w : Nat) : (s.withFetchWord n w).replies = s.replies := rfl

end Sys2Proof.Machine
end

