-- ==== Sys2Proof/Laws/Ops.lean ====
section
/-! SUPPORT. One lemma per shared operation that says what it can do, for proofs to cite instead of unfolding it. -/

namespace Sys2Proof.Machine

/-! ## Answers -/

theorem commit_eq (s : State) (h : Hbpu) : commit s h = .next { s with hbpu := h } := rfl

theorem rejected_eq (s : State) (c : ErrCode) :
    rejected s c = .next { s with hbpu := { s.hbpu with err := if s.hbpu.err = .none then c else s.hbpu.err } } := by
  rw [rejected, commit_eq, Hbpu.reject_eq]

theorem failed_eq (s : State) (c : ErrCode) :
    failed s c = .next { s with hbpu := { s.hbpu with err := c, mode := .error, out := [] } } := rfl

theorem reply_eq (s : State) (w : Word) : reply s w = .next { s with replies := s.replies ++ [w] } := rfl

theorem requireMode_legal (i : Instr) (s : State) (body : Result) (h : legalIn i s.hbpu.mode = true) :
    requireMode i s body = body := if_pos h

theorem requireMode_illegal (i : Instr) (s : State) (body : Result) (h : legalIn i s.hbpu.mode = false) :
    requireMode i s body = rejected s .badMode := by simp [requireMode, h]

/-- What a command behind the mode check can answer. -/
theorem requireMode_cases (i : Instr) (s : State) (body : Result) :
    (legalIn i s.hbpu.mode = true ∧ requireMode i s body = body) ∨
    (legalIn i s.hbpu.mode = false ∧ requireMode i s body = rejected s .badMode) := by
  cases h : legalIn i s.hbpu.mode
  · exact .inr ⟨rfl, requireMode_illegal i s body h⟩
  · exact .inl ⟨rfl, requireMode_legal i s body h⟩

/-! ## Bit strings -/

@[simp] theorem bitsBelow_length {w : Nat} (v : BitVec w) (k : Nat) : (bitsBelow v k).length = k := by
  induction k with
  | zero => rfl
  | succ k ih => simp [bitsBelow, ih]

@[simp] theorem bits8_length (b : Byte) : (bits8 b).length = 8 := bitsBelow_length b 8

/-- Bit strings of two words agree when the words' bits do. -/
theorem bitsBelow_congr {w w' : Nat} (v : BitVec w) (v' : BitVec w') (k : Nat)
    (h : ∀ j, j < k → v.getLsbD j = v'.getLsbD j) : bitsBelow v k = bitsBelow v' k := by
  induction k with
  | zero => rfl
  | succ k ih => rw [bitsBelow, bitsBelow, h k (by omega), ih (fun j hj => h j (by omega))]

/-! ## PushBit -/

theorem Hbpu.pushBit_full (h : Hbpu) (b : Bool) (hn : h.accn.toNat = 7) :
    h.pushBit b = { h with
      remain := h.remain - 1
      out := h.out ++ [(h.acc.setWidth 8 <<< 1) ||| (BitVec.ofBool b).setWidth 8], acc := 0, accn := 0 } := by
  simp [Hbpu.pushBit, hn]

theorem Hbpu.pushBit_part (h : Hbpu) (b : Bool) (hn : h.accn.toNat ≠ 7) :
    h.pushBit b = { h with
      remain := h.remain - 1
      acc := ((h.acc.setWidth 8 <<< 1) ||| (BitVec.ofBool b).setWidth 8).setWidth 7
      accn := BitVec.ofNat 3 (h.accn.toNat + 1) } := by
  have : h.accn.toNat + 1 ≠ 8 := by omega
  simp [Hbpu.pushBit, this]

theorem Hbpu.pushBits_append (bs cs : List Bool) (h : Hbpu) : h.pushBits (bs ++ cs) = (h.pushBits bs).pushBits cs := by
  induction bs generalizing h with
  | nil => rfl
  | cons b bs ih => exact ih _

theorem Hbpu.pushBits_remain (bs : List Bool) (h : Hbpu) :
    (h.pushBits bs).remain = h.remain - BitVec.ofNat 32 bs.length := by
  induction bs generalizing h with
  | nil => simp [Hbpu.pushBits]
  | cons b bs ih =>
    rw [Hbpu.pushBits, ih, Hbpu.pushBit_remain, List.length_cons]
    have h1 : BitVec.ofNat 32 (bs.length + 1) = BitVec.ofNat 32 bs.length + 1 := by simp [BitVec.ofNat_add]
    rw [h1]; ring

/-! ## WalkBit -/

theorem walkBits_append (m : Memory) (r : Index) (bs cs : List Bool) (x : Walk) :
    walkBits m r (bs ++ cs) x =
      match walkBits m r bs x with
      | .error e => .error e
      | .ok y => walkBits m r cs y := by
  induction bs generalizing x with
  | nil => rfl
  | cons b bs ih =>
    simp only [List.cons_append, walkBits]
    cases walkBit m r b x with
    | error e => rfl
    | ok y => exact ih y

/-- One bit of a walk moves one edge: it stops, or returns to the root with a character, or stands at an internal
node inside a code. -/
theorem walkBit_ok (m : Memory) (r : Index) (b : Bool) (x y : Walk) (h : walkBit m r b x = .ok y) :
    ∃ n c, m.read x.node = some n ∧ nodeIsLeaf n = false ∧ m.read (nodeChild n b) = some c ∧
      ((nodeIsLeaf c = true ∧ y = { node := r, inCode := false, out := x.out ++ [nodeChar c] }) ∨
       (nodeIsLeaf c = false ∧ y = { x with node := nodeChild n b, inCode := true })) := by
  unfold walkBit at h
  split at h
  · cases h
  · next n hn =>
    split at h
    · cases h
    · next hl =>
      split at h
      · cases h
      · next c hc =>
        refine ⟨n, c, hn, by simpa using hl, hc, ?_⟩
        split at h
        · next hc' => exact .inl ⟨hc', by cases h; rfl⟩
        · next hc' => exact .inr ⟨by simpa using hc', by cases h; rfl⟩

/-- A walk emits at most one character a bit. -/
theorem walkBits_out_length (m : Memory) (r : Index) (bs : List Bool) (x y : Walk) (h : walkBits m r bs x = .ok y) :
    y.out.length ≤ x.out.length + bs.length := by
  induction bs generalizing x with
  | nil => cases h; simp
  | cons b bs ih =>
    unfold walkBits at h
    split at h
    · cases h
    · next z hz =>
      have h1 := ih z h
      obtain ⟨n, c, -, -, -, h2 | h2⟩ := walkBit_ok m r b x z hz
      · rw [h2.2] at h1; simp at h1 ⊢; omega
      · rw [h2.2] at h1; simp at h1 ⊢; omega

/-! ## Commands and the words that carry them -/

/-- A command word decodes to a command (30_encoding.md R86). -/
theorem decodeCmd_isCommand (w : Word) (i : Instr) (h : decodeCmd w = .ok i) : isCommand i = true := by
  unfold decodeCmd checkReserved at h
  split at h <;> first | (split at h <;> cases h <;> rfl) | cases h

/-- A write to CMD of a command's word runs the command. -/
theorem execWrCmd_ok (w : Word) (i : Instr) (s : State) (h : decodeCmd w = .ok i) : execWrCmd w s = exec i s := by
  have hc := decodeCmd_isCommand w i h
  rw [execWrCmd, h]
  cases i <;> first | rfl | cases hc

theorem execWrCmd_error (w : Word) (e : DecodeError) (s : State) (h : decodeCmd w = .error e) :
    execWrCmd w s = rejected s .illegalCmd := by rw [execWrCmd, h]

end Sys2Proof.Machine
end

