-- ==== Sys2Proof/Laws/Exec.lean ====
section
/-! SUPPORT. What each instruction answers, one lemma each, so that proofs need not unfold `exec` or the mode check:
`exec_badMode` for every command outside its modes, and one equation per command in its mode. -/

namespace Sys2Proof.Machine

/-- A command outside its modes is rejected with BAD_MODE (30_encoding.md R87). -/
theorem exec_badMode (i : Instr) (s : State) (h : legalIn i s.hbpu.mode = false) : exec i s = rejected s .badMode := by
  cases i <;> exact requireMode_illegal _ s _ h

theorem exec_packStart (s : State) (h : s.hbpu.mode = .idle) :
    exec .packStart s = if s.hbpu.out.length ≠ 0 then rejected s .notDrained else commit s s.hbpu.openPack :=
  requireMode_legal _ s _ (by simp [legalIn, h])

theorem exec_packBits (n : BitVec 6) (s : State) (h : s.hbpu.mode = .pack) :
    exec (.packBits n) s =
      if n.toNat = 0 ∨ maxPush < n.toNat then rejected s .badCount
      else if s.hbpu.remain.toNat < n.toNat then failed s .lengthOverrun
      else if s.outRoom < s.hbpu.bytesMade n.toNat then rejected s .outFull
      else commit s (s.hbpu.pushBits (bitsBelow s.hbpu.arg n.toNat)) :=
  requireMode_legal _ s _ (by simp [legalIn, h])

theorem exec_packSym (y : Byte) (s : State) (h : s.hbpu.mode = .pack) :
    exec (.packSym y) s =
      match symbolBit y with
      | none => failed s .invalidBitString
      | some b =>
        if s.hbpu.remain = 0 then failed s .lengthOverrun
        else if s.outRoom < s.hbpu.bytesMade 1 then rejected s .outFull
        else commit s (s.hbpu.pushBit b) :=
  requireMode_legal _ s _ (by simp [legalIn, h])

theorem exec_packEnd (s : State) (h : s.hbpu.mode = .pack) :
    exec .packEnd s =
      if s.hbpu.remain ≠ 0 then failed s .lengthShort
      else commit s { s.hbpu with mode := .idle, done := true } :=
  requireMode_legal _ s _ (by simp [legalIn, h])

theorem exec_unpackStart (m : UMode) (s : State) (h : s.hbpu.mode = .idle) :
    exec (.unpackStart m) s =
      if s.hbpu.out.length ≠ 0 then rejected s .notDrained
      else commit s
        { s.hbpu with
          mode := .unpack, umode := m, first := true, walk := s.hbpu.root, inCode := false
          done := false, trunc := false, malpad := false } :=
  requireMode_legal _ s _ (by simp [legalIn, h])

theorem exec_unpackByte (b : Byte) (s : State) (h : s.hbpu.mode = .unpack) :
    exec (.unpackByte b) s =
      match byteBits s.hbpu.first s.hbpu.padmode b with
      | none => failed s .malformedPadding
      | some (bits, dropped) =>
        match s.hbpu.unpackBits bits with
        | .error .atLeaf => failed s .treeFault
        | .error (.unwritten i) => .fault (.treeUnwritten i)
        | .ok x =>
          if s.outRoom < x.out.length then rejected s .outFull
          else commit s (s.hbpu.acceptByte x dropped) :=
  requireMode_legal _ s _ (by simp [legalIn, h])

theorem exec_unpackEnd (s : State) (h : s.hbpu.mode = .unpack) :
    exec .unpackEnd s =
      if s.hbpu.first then failed s .emptyInput
      else commit s
        { s.hbpu with
          trunc := if s.hbpu.umode = .decode ∧ s.hbpu.inCode = true then true else s.hbpu.trunc
          mode := .idle, done := true } :=
  requireMode_legal _ s _ (by simp [legalIn, h])

theorem exec_treeWrite (i : Index) (s : State) (h : s.hbpu.mode = .idle) :
    exec (.treeWrite i) s = commit s { s.hbpu with tree := s.hbpu.tree.write i (canon s.hbpu.arg) } :=
  requireMode_legal _ s _ (by simp [legalIn, h])

theorem exec_treeRead (i : Index) (s : State) :
    exec (.treeRead i) s =
      match s.hbpu.tree.read i with
      | none => .fault (.treeUnwritten i)
      | some w => commit s { s.hbpu with arg := w } := rfl

theorem exec_setRoot (i : Index) (s : State) (h : s.hbpu.mode = .idle) :
    exec (.setRoot i) s = commit s { s.hbpu with root := i, walk := i } :=
  requireMode_legal _ s _ (by simp [legalIn, h])

theorem exec_rdOut (s : State) :
    exec .rdOut s =
      match s.hbpu.out with
      | [] => reply s 0
      | b :: rest => reply { s with hbpu := { s.hbpu with out := rest } } (0x00000100 ||| b.setWidth 32) := rfl

/-- An instruction and the command it runs answer alike. -/
theorem exec_plain (i : Instr) (s : State) : exec (plain i) s = exec i s := by
  cases i <;> try rfl
  next w =>
    cases h : decodeCmd w with
    | error e => simp [plain, decode, h, Except.toOption]
    | ok j =>
      have : plain (.wrCmd w) = j := by simp [plain, decode, h, Except.toOption]
      rw [this]; exact (execWrCmd_ok w j s h).symm

/-- The command a write to CMD runs is a command, or the word is illegal and the write stays itself. -/
theorem plain_wrCmd (w : Word) :
    (isCommand (plain (.wrCmd w)) = true ∧ decodeCmd w = .ok (plain (.wrCmd w))) ∨
    (plain (.wrCmd w) = .wrCmd w ∧ ∀ s, exec (.wrCmd w) s = rejected s .illegalCmd) := by
  cases h : decodeCmd w with
  | error e =>
    exact .inr ⟨by simp [plain, decode, h, Except.toOption], fun s => execWrCmd_error w e s h⟩
  | ok j =>
    have : plain (.wrCmd w) = j := by simp [plain, decode, h, Except.toOption]
    rw [this]; exact .inl ⟨decodeCmd_isCommand w j h, rfl⟩

end Sys2Proof.Machine
end

