-- ==== Sys2Proof/Laws/Effects.lean ====
section
/-! SUPPORT. Every way an instruction can reach a next state, said once: proofs over all instructions take
`exec_effect` apart and never unfold `exec`. -/

namespace Sys2Proof.Machine

/-- What instruction `j` (a command, or a register access that is no write of a legal command word to CMD) did when it
took `s` to the state `t`. -/
inductive Effect (s : State) : Instr → State → Prop
  /-- A NOP, an ignored write, or a read without side effect: the HBPU stays. -/
  | quiet (j : Instr) (rs : List Word) (hj : j = .nop ∨ isCommand j = false) (ho : j = .rdOut → s.hbpu.out = [])
      (hr : ((∃ o, encode j = .rd o) ∧ rs.length = 1) ∨ ((∀ o, encode j ≠ .rd o) ∧ rs = [])) :
      Effect s j { s with replies := s.replies ++ rs }
  | pop (b : Byte) (rest : List Byte) (w : Word) (ho : s.hbpu.out = b :: rest) :
      Effect s .rdOut { s with hbpu := { s.hbpu with out := rest }, replies := s.replies ++ [w] }
  | setPad (d : Word) (p : PadMode) : Effect s (.wrCtrl d) { s with hbpu := { s.hbpu with padmode := p } }
  | setArg (d : Word) : Effect s (.wrArg d) { s with hbpu := { s.hbpu with arg := d } }
  | softReset :
      Effect s .softReset { s with hbpu := { s.hbpu with padmode := .strict, arg := 0, root := 0 }.clearSession }
  | abort : Effect s .abort { s with hbpu := s.hbpu.clearSession }
  | treeWrite (i : Index) (hm : s.hbpu.mode = .idle) :
      Effect s (.treeWrite i) { s with hbpu := { s.hbpu with tree := s.hbpu.tree.write i (canon s.hbpu.arg) } }
  | treeRead (i : Index) (w : Word) (hw : s.hbpu.tree.read i = some w) :
      Effect s (.treeRead i) { s with hbpu := { s.hbpu with arg := w } }
  | setRoot (i : Index) (hm : s.hbpu.mode = .idle) :
      Effect s (.setRoot i) { s with hbpu := { s.hbpu with root := i, walk := i } }
  | packStart (hm : s.hbpu.mode = .idle) (ho : s.hbpu.out = []) :
      Effect s .packStart { s with hbpu := s.hbpu.openPack }
  /-- PACK_BITS or PACK_SYM pushed the bits `bs`. -/
  | push (j : Instr) (bs : List Bool) (hm : s.hbpu.mode = .pack) (hr : bs.length ≤ s.hbpu.remain.toNat)
      (h1 : 1 ≤ bs.length) (h2 : bs.length ≤ 32) (ho : s.hbpu.bytesMade bs.length ≤ s.outRoom)
      (hj : (∃ n : BitVec 6, j = .packBits n ∧ bs = bitsBelow s.hbpu.arg n.toNat) ∨
        ∃ (y : Byte) (b : Bool), j = .packSym y ∧ symbolBit y = some b ∧ bs = [b]) :
      Effect s j { s with hbpu := s.hbpu.pushBits bs }
  | packEnd (hm : s.hbpu.mode = .pack) (hr : s.hbpu.remain = 0) :
      Effect s .packEnd { s with hbpu := { s.hbpu with mode := .idle, done := true } }
  | unpackStart (m : UMode) (hm : s.hbpu.mode = .idle) (ho : s.hbpu.out = []) :
      Effect s (.unpackStart m)
        { s with hbpu :=
          { s.hbpu with
            mode := .unpack, umode := m, first := true, walk := s.hbpu.root, inCode := false
            done := false, trunc := false, malpad := false } }
  | unpackByte (b : Byte) (bits : List Bool) (dropped : Bool) (x : Walk) (hm : s.hbpu.mode = .unpack)
      (hb : byteBits s.hbpu.first s.hbpu.padmode b = some (bits, dropped)) (hx : s.hbpu.unpackBits bits = .ok x)
      (ho : x.out.length ≤ s.outRoom) :
      Effect s (.unpackByte b) { s with hbpu := s.hbpu.acceptByte x dropped }
  | unpackEnd (hm : s.hbpu.mode = .unpack) (hf : s.hbpu.first = false) :
      Effect s .unpackEnd
        { s with hbpu :=
          { s.hbpu with
            trunc := if s.hbpu.umode = .decode ∧ s.hbpu.inCode = true then true else s.hbpu.trunc
            mode := .idle, done := true } }
  /-- A rejection, which changes ERR at most. -/
  | reject (j : Instr) (c : ErrCode) (hj : ∀ o, encode j ≠ .rd o) (hc : c.fatal = false) (hn : c ≠ .none)
      (ha : ∀ b, j = .unpackByte b → acceptsByte b s = false)
      (hfull : c = .outFull → (∃ bs : List Bool, bs.length ≤ 32 ∧ s.outRoom < s.hbpu.bytesMade bs.length) ∨
        ∃ (first : Bool) (b : Byte) (bits : List Bool) (dropped : Bool) (x : Walk),
          byteBits first s.hbpu.padmode b = some (bits, dropped) ∧ s.hbpu.unpackBits bits = .ok x ∧
            s.outRoom < x.out.length) :
      Effect s j { s with hbpu := { s.hbpu with err := if s.hbpu.err = .none then c else s.hbpu.err } }
  /-- A fatal error, which changes ERR, MODE and OUT. -/
  | fail (j : Instr) (c : ErrCode) (hj : ∀ o, encode j ≠ .rd o) (hc : c.fatal = true) (hm : s.hbpu.mode = .pack ∨ s.hbpu.mode = .unpack) :
      Effect s j { s with hbpu := { s.hbpu with err := c, mode := .error, out := [] } }

/-- An instruction that changes nothing. -/
theorem Effect.ignored {s : State} (j : Instr) (hc : j = .nop ∨ isCommand j = false) (ho : j ≠ .rdOut) (hj : ∀ o, encode j ≠ .rd o) : Effect s j s := by
  have h := Effect.quiet (s := s) j [] hc (fun e => absurd e ho) (.inr ⟨hj, rfl⟩)
  simpa using h

theorem Effect.of_reject {s t : State} {j : Instr} {c : ErrCode} (h : rejected s c = .next t)
    (hj : ∀ o, encode j ≠ .rd o) (hc : c.fatal = false) (hn : c ≠ .none)
    (ha : ∀ b, j = .unpackByte b → acceptsByte b s = false) (hf : c ≠ .outFull) : Effect s j t := by
  rw [rejected_eq] at h; cases h
  exact .reject j c hj hc hn ha (fun e => absurd e hf)

theorem Effect.of_fail {s t : State} {j : Instr} {c : ErrCode} (h : failed s c = .next t)
    (hj : ∀ o, encode j ≠ .rd o) (hc : c.fatal = true) (hm : s.hbpu.mode = .pack ∨ s.hbpu.mode = .unpack) : Effect s j t := by
  rw [failed_eq] at h; cases h
  exact .fail j c hj hc hm

theorem effect_packBits {s t : State} {n : BitVec 6} (hm : s.hbpu.mode = .pack) (h : exec (.packBits n) s = .next t) :
    Effect s (.packBits n) t := by
  rw [exec_packBits n s hm] at h
  have hl := bitsBelow_length s.hbpu.arg n.toNat
  split at h
  · exact .of_reject h nofun rfl (by decide) nofun (by decide)
  · next h0 =>
    simp only [maxPush, not_or, Nat.not_lt] at h0
    split at h
    · exact .of_fail h nofun rfl (.inl hm)
    · next hr =>
      split at h
      · next ho =>
        rw [rejected_eq] at h; cases h
        exact .reject _ _ nofun rfl (by decide) nofun (fun _ => .inl ⟨bitsBelow s.hbpu.arg n.toNat, by omega, by rw [hl]; exact ho⟩)
      · next ho =>
        cases h
        exact .push _ _ hm (by omega) (by omega) (by omega) (by rw [hl]; omega) (.inl ⟨n, rfl, rfl⟩)

theorem effect_packSym {s t : State} {y : Byte} (hm : s.hbpu.mode = .pack) (h : exec (.packSym y) s = .next t) :
    Effect s (.packSym y) t := by
  rw [exec_packSym y s hm] at h
  split at h
  · exact .of_fail h nofun rfl (.inl hm)
  · next b hb =>
    split at h
    · exact .of_fail h nofun rfl (.inl hm)
    · next hr =>
      have hr' : 1 ≤ s.hbpu.remain.toNat := by
        have : s.hbpu.remain.toNat ≠ 0 := fun e => hr (BitVec.eq_of_toNat_eq e)
        omega
      split at h
      · next ho =>
        rw [rejected_eq] at h; cases h
        exact .reject _ _ nofun rfl (by decide) nofun (fun _ => .inl ⟨[b], by simp, ho⟩)
      · next ho =>
        cases h
        exact .push _ [b] hm hr' (by simp) (by simp) (Nat.le_of_not_lt ho) (.inr ⟨y, b, rfl, hb, rfl⟩)

theorem effect_unpackByte {s t : State} {b : Byte} (hm : s.hbpu.mode = .unpack)
    (h : exec (.unpackByte b) s = .next t) : Effect s (.unpackByte b) t := by
  rw [exec_unpackByte b s hm] at h
  split at h
  · exact .of_fail h nofun rfl (.inr hm)
  · next bits dropped hb =>
    split at h
    · exact .of_fail h nofun rfl (.inr hm)
    · cases h
    · next x hx =>
      split at h
      · next ho =>
        rw [rejected_eq] at h; cases h
        have ha : acceptsByte b s = false := by unfold acceptsByte; rw [hb]; simp [hx, Nat.not_le.2 ho]
        exact .reject _ _ nofun rfl (by decide) (by rintro _ ⟨⟩; exact ha) (fun _ => .inr ⟨_, b, bits, dropped, x, hb, hx, ho⟩)
      · next ho =>
        cases h
        exact .unpackByte b bits dropped x hm hb hx (Nat.le_of_not_lt ho)

/-- Every next state of an instruction is one of the effects. -/
theorem exec_effect (i : Instr) (s t : State) (h : exec i s = .next t) : Effect s (plain i) t := by
  cases hi : plain i
  all_goals (have hx : exec (plain i) s = .next t := by rw [exec_plain]; exact h)
  all_goals rw [hi] at hx
  case wrCmd w =>
    have he : i = .wrCmd w := by
      cases i <;> simp only [plain, reduceCtorEq] at hi
      next v =>
        rcases plain_wrCmd v with ⟨hc, -⟩ | ⟨hv, -⟩
        · rw [show plain (.wrCmd v) = .wrCmd w from hi] at hc; cases hc
        · rw [← hv]; exact hi
    rcases plain_wrCmd w with ⟨hc, -⟩ | ⟨-, hr⟩
    · rw [he] at hi; rw [hi] at hc; cases hc
    · rw [hr] at hx; exact .of_reject hx nofun rfl (by decide) nofun (by decide)
  case nop => cases hx; exact .ignored _ (.inl rfl) nofun nofun
  case softReset => cases hx; exact .softReset
  case abort => cases hx; exact .abort
  case treeRead idx =>
    rw [exec_treeRead] at hx
    split at hx
    · cases hx
    · next w hw => cases hx; exact .treeRead idx w hw
  case rdOut =>
    rw [exec_rdOut] at hx
    split at hx
    · next ho => cases hx; exact .quiet _ _ (.inr rfl) (fun _ => ho) (.inl ⟨⟨_, rfl⟩, rfl⟩)
    · next b rest ho => cases hx; exact .pop b rest _ ho
  case wrCtrl d => cases hx; exact .setPad d _
  case wrArg d => cases hx; exact .setArg d
  case packBits n =>
    by_cases hm : s.hbpu.mode = .pack
    · exact effect_packBits hm hx
    · rw [exec_badMode _ s (by simpa [legalIn] using hm)] at hx; exact .of_reject hx nofun rfl (by decide) nofun (by decide)
  case packSym y =>
    by_cases hm : s.hbpu.mode = .pack
    · exact effect_packSym hm hx
    · rw [exec_badMode _ s (by simpa [legalIn] using hm)] at hx; exact .of_reject hx nofun rfl (by decide) nofun (by decide)
  case unpackByte b =>
    by_cases hm : s.hbpu.mode = .unpack
    · exact effect_unpackByte hm hx
    · rw [exec_badMode _ s (by simpa [legalIn] using hm)] at hx; exact .of_reject hx nofun rfl (by decide) (fun _ _ => by simp [acceptsByte, hm]) (by decide)
  case packStart =>
    by_cases hm : s.hbpu.mode = .idle
    · rw [exec_packStart s hm] at hx
      split at hx
      · exact .of_reject hx nofun rfl (by decide) nofun (by decide)
      · next ho => cases hx; exact .packStart hm (by simpa using ho)
    · rw [exec_badMode _ s (by simpa [legalIn] using hm)] at hx; exact .of_reject hx nofun rfl (by decide) nofun (by decide)
  case packEnd =>
    by_cases hm : s.hbpu.mode = .pack
    · rw [exec_packEnd s hm] at hx
      split at hx
      · exact .of_fail hx nofun rfl (.inl hm)
      · next hr => cases hx; exact .packEnd hm (by simpa using hr)
    · rw [exec_badMode _ s (by simpa [legalIn] using hm)] at hx; exact .of_reject hx nofun rfl (by decide) nofun (by decide)
  case unpackStart m =>
    by_cases hm : s.hbpu.mode = .idle
    · rw [exec_unpackStart m s hm] at hx
      split at hx
      · exact .of_reject hx nofun rfl (by decide) nofun (by decide)
      · next ho => cases hx; exact .unpackStart m hm (by simpa using ho)
    · rw [exec_badMode _ s (by simpa [legalIn] using hm)] at hx; exact .of_reject hx nofun rfl (by decide) nofun (by decide)
  case unpackEnd =>
    by_cases hm : s.hbpu.mode = .unpack
    · rw [exec_unpackEnd s hm] at hx
      split at hx
      · exact .of_fail hx nofun rfl (.inr hm)
      · next hf => cases hx; exact .unpackEnd hm (by simpa using hf)
    · rw [exec_badMode _ s (by simpa [legalIn] using hm)] at hx; exact .of_reject hx nofun rfl (by decide) nofun (by decide)
  case treeWrite idx =>
    by_cases hm : s.hbpu.mode = .idle
    · rw [exec_treeWrite idx s hm] at hx; cases hx; exact .treeWrite idx hm
    · rw [exec_badMode _ s (by simpa [legalIn] using hm)] at hx; exact .of_reject hx nofun rfl (by decide) nofun (by decide)
  case setRoot idx =>
    by_cases hm : s.hbpu.mode = .idle
    · rw [exec_setRoot idx s hm] at hx; cases hx; exact .setRoot idx hm
    · rw [exec_badMode _ s (by simpa [legalIn] using hm)] at hx; exact .of_reject hx nofun rfl (by decide) nofun (by decide)
  all_goals first
    | (cases hx; exact .quiet _ [_] (.inr rfl) nofun (.inl ⟨⟨_, rfl⟩, rfl⟩))
    | (cases hx; exact .ignored _ (.inr rfl) nofun nofun)

end Sys2Proof.Machine
end

