-- ==== Sys2Proof/Laws/Bits.lean ====
section
/-! SUPPORT. Lemmas about bit strings, PushBit and the walk beyond those of Laws/Ops.lean: what PushBit keeps and
counts, the bytes of a bit string, the payload of a file byte, and where a walk can stand. -/

namespace Sys2Proof.Machine

/-! ## Node words -/

theorem canon_canon (w : Word) : canon (canon w) = canon w := by
  unfold canon
  by_cases h : nodeIsLeaf w = true
  · have h' : nodeIsLeaf (w &&& 0x8000007F) = true := by
      unfold nodeIsLeaf at *; rw [BitVec.getLsbD_and, h]; rfl
    rw [if_pos h, if_pos h', BitVec.and_assoc]; rfl
  · have h' : ¬ nodeIsLeaf (w &&& 0x0000FFFF) = true := by
      unfold nodeIsLeaf at *; rw [BitVec.getLsbD_and]; simp
    rw [if_neg h, if_neg h', BitVec.and_assoc]; rfl

/-! ## PushBit -/

theorem Hbpu.pushBit_frame (h : Hbpu) (b : Bool) :
    ∃ o a n, h.pushBit b = { h with out := o, acc := a, accn := n, remain := h.remain - 1 } := by
  unfold Hbpu.pushBit; simp only; split <;> exact ⟨_, _, _, rfl⟩

theorem Hbpu.pushBits_frame (bs : List Bool) (h : Hbpu) :
    ∃ o a n r, h.pushBits bs = { h with out := o, acc := a, accn := n, remain := r } := by
  induction bs generalizing h with
  | nil => exact ⟨_, _, _, _, rfl⟩
  | cons b bs ih =>
    obtain ⟨o, a, n, e⟩ := h.pushBit_frame b
    obtain ⟨o', a', n', r', e'⟩ := ih (h.pushBit b)
    rw [Hbpu.pushBits, e', e]; exact ⟨_, _, _, _, rfl⟩

theorem Hbpu.openPack_frame (h : Hbpu) :
    ∃ o a n, h.openPack =
      { h with
        out := o, acc := a, accn := n, remain := h.arg, mode := .pack
        done := false, trunc := false, malpad := false } := by
  unfold Hbpu.openPack; simp only; split <;> exact ⟨_, _, _, rfl⟩

theorem pushBit_byte_toNat (a : BitVec 7) (b : Bool) :
    ((a.setWidth 8 <<< 1) ||| (BitVec.ofBool b).setWidth 8).toNat = 2 * a.toNat + b.toNat := by
  revert a b; decide

theorem pushBit_acc_toNat (a : BitVec 7) (n : Nat) (b : Bool) (hn : n < 7) (h : a.toNat < 2 ^ n) :
    (((a.setWidth 8 <<< 1) ||| (BitVec.ofBool b).setWidth 8).setWidth 7).toNat = 2 * a.toNat + b.toNat := by
  have : 2 ^ n ≤ 2 ^ 6 := Nat.pow_le_pow_right (by decide) (by omega)
  have := Bool.toNat_le b
  rw [BitVec.toNat_setWidth, pushBit_byte_toNat]
  omega

/-- ACCN after a bit. -/
theorem Hbpu.pushBit_accn (h : Hbpu) (b : Bool) : (h.pushBit b).accn.toNat = (h.accn.toNat + 1) % 8 := by
  have hl := h.accn.isLt
  by_cases hn : h.accn.toNat = 7
  · rw [Hbpu.pushBit_full h b hn]; simp [hn]
  · rw [Hbpu.pushBit_part h b hn]; simp

/-- The bytes a bit completes. -/
theorem Hbpu.pushBit_out_length (h : Hbpu) (b : Bool) :
    (h.pushBit b).out.length = h.out.length + (h.accn.toNat + 1) / 8 := by
  have hl := h.accn.isLt
  by_cases hn : h.accn.toNat = 7
  · rw [Hbpu.pushBit_full h b hn]; simp [hn]
  · rw [Hbpu.pushBit_part h b hn]; simp only; omega

theorem Hbpu.pushBits_accn (bs : List Bool) (h : Hbpu) :
    (h.pushBits bs).accn.toNat = (h.accn.toNat + bs.length) % 8 := by
  induction bs generalizing h with
  | nil => have := h.accn.isLt; simp [Hbpu.pushBits]; omega
  | cons b bs ih => rw [Hbpu.pushBits, ih, Hbpu.pushBit_accn, List.length_cons]; omega

theorem Hbpu.pushBits_out_length (bs : List Bool) (h : Hbpu) :
    (h.pushBits bs).out.length = h.out.length + (h.accn.toNat + bs.length) / 8 := by
  induction bs generalizing h with
  | nil => have := h.accn.isLt; simp [Hbpu.pushBits]; omega
  | cons b bs ih =>
    rw [Hbpu.pushBits, ih, Hbpu.pushBit_accn, Hbpu.pushBit_out_length, List.length_cons]
    have := h.accn.isLt; omega

/-- REMAIN after accepted pushes. -/
theorem Hbpu.pushBits_remain_toNat (bs : List Bool) (h : Hbpu) (hr : bs.length ≤ h.remain.toNat) :
    (h.pushBits bs).remain.toNat = h.remain.toNat - bs.length := by
  have := h.remain.isLt
  rw [Hbpu.pushBits_remain, BitVec.toNat_sub, BitVec.toNat_ofNat]
  omega

/-- ACC stays below `2 ^ ACCN`. -/
theorem Hbpu.pushBit_acc_lt (h : Hbpu) (b : Bool) (hp : h.acc.toNat < 2 ^ h.accn.toNat) :
    (h.pushBit b).acc.toNat < 2 ^ (h.pushBit b).accn.toNat := by
  have hl := h.accn.isLt
  by_cases hn : h.accn.toNat = 7
  · rw [Hbpu.pushBit_full h b hn]; simp
  · have hb := Bool.toNat_le b
    have h8 : (h.accn.toNat + 1) % 8 = h.accn.toNat + 1 := by omega
    rw [Hbpu.pushBit_accn, h8, Hbpu.pushBit_part h b hn, Nat.pow_succ]
    show BitVec.toNat _ < _
    rw [pushBit_acc_toNat _ _ _ (by omega) hp]; omega

theorem Hbpu.pushBits_acc_lt (bs : List Bool) (h : Hbpu) (hp : h.acc.toNat < 2 ^ h.accn.toNat) :
    (h.pushBits bs).acc.toNat < 2 ^ (h.pushBits bs).accn.toNat := by
  induction bs generalizing h with
  | nil => exact hp
  | cons b bs ih => exact ih _ (h.pushBit_acc_lt b hp)

/-! ## Bytes and bit strings -/

theorem byteOfBits_bits8 (b : Byte) : byteOfBits (bits8 b) = b := by revert b; decide

/-- Cutting the bits of a file gives the file. -/
theorem cutBytes_flatMap_bits8 (f : List Byte) : cutBytes (f.flatMap bits8) = f := by
  induction f with
  | nil => rfl
  | cons b f ih =>
    have h : cutBytes (bits8 b ++ f.flatMap bits8) = byteOfBits (bits8 b) :: cutBytes (f.flatMap bits8) := rfl
    rw [List.flatMap_cons, h, byteOfBits_bits8, ih]

theorem highestOne_spec (b : Byte) (hb : b ≠ 0) :
    highestOne b < 8 ∧ b.getLsbD (highestOne b) = true ∧
      (∀ j < 8, highestOne b < j → b.getLsbD j = false) ∧
      bitsBelow b (highestOne b) = afterFirstOne (bits8 b) := by
  revert b; decide

theorem byteBits_length {first : Bool} {pad : PadMode} {b : Byte} {bits : List Bool} {dropped : Bool}
    (h : byteBits first pad b = some (bits, dropped)) : bits.length ≤ 8 := by
  unfold byteBits at h
  split at h
  · split at h
    · split at h <;> cases h; simp
    · next hb => cases h; have := (highestOne_spec b hb).1; simp; omega
  · cases h; simp

theorem Hbpu.unpackBits_length {h : Hbpu} {bits : List Bool} {x : Walk} (e : h.unpackBits bits = .ok x) :
    x.out.length ≤ bits.length := by
  unfold Hbpu.unpackBits at e
  split at e
  · cases e; simp
  · simpa using walkBits_out_length _ _ _ _ _ e

/-! ## Where a walk stands -/

/-- The entry is written and is an internal node. -/
def Inside (m : Memory) (i : Index) : Prop := ∃ n, m.read i = some n ∧ nodeIsLeaf n = false

/-- After a bit the walk stands at the root outside a code, or at an internal node inside one. -/
theorem walkBit_inside {m : Memory} {r : Index} {b : Bool} {x y : Walk} (h : walkBit m r b x = .ok y) :
    Inside m x.node ∧ (y.inCode = false → y.node = r) ∧ (y.inCode = true → Inside m y.node) := by
  obtain ⟨n, c, ha, hb, hc, ⟨hl, e⟩ | ⟨hl, e⟩⟩ := walkBit_ok _ _ _ _ _ h
  · subst e; exact ⟨⟨n, ha, hb⟩, fun _ => rfl, nofun⟩
  · subst e; exact ⟨⟨n, ha, hb⟩, nofun, fun _ => ⟨c, hc, hl⟩⟩

/-- A walk reads no entry but written ones, or stops with the first that is not. -/
theorem walkBits_unwritten (m : Memory) (r : Index) (bs : List Bool) (x : Walk) (i : Index)
    (h : walkBits m r bs x = .error (.unwritten i)) : m.read i = none := by
  induction bs generalizing x with
  | nil => cases h
  | cons b bs ih =>
    unfold walkBits at h
    split at h
    · next e he =>
      cases h
      unfold walkBit at he
      split at he
      · next hn => cases he; exact hn
      · split at he
        · cases he
        · split at he
          · next hn => cases he; exact hn
          · split at he <;> cases he
    · exact ih _ h

end Sys2Proof.Machine
end

