-- ==== Sys2Proof/Laws/PerInstr.lean ====
section
/-! SUPPORT. Laws made per instruction. RowMatch: the code of every well-formed instruction has its opcode-table row's
`match` under the row's `mask` (30_encoding.md R82, R88; the numbers are those of spec/opcode_table.json). -/

namespace Sys2Proof.Laws.RowMatch

/-- The bits a row's mask and match apply to: the command word, or the access descriptor. -/
def codeBits : Code → Word
  | .cmd w => w
  | .rd o => (Code.rd o).descriptor.setWidth 32
  | .wr o d => (Code.wr o d).descriptor.setWidth 32

/-- A row's (mask, match) in spec/opcode_table.json. -/
def row : Instr → Word × Word
  | .nop => (0xFFFFFFFF, 0x00000000)
  | .softReset => (0xFFFFFFFF, 0x10000000)
  | .abort => (0xFFFFFFFF, 0x20000000)
  | .packStart => (0xFFFFFFFF, 0x30000000)
  | .packBits _ => (0xFFFFFFC0, 0x40000000)
  | .packSym _ => (0xFFFFFF00, 0x50000000)
  | .packEnd => (0xFFFFFFFF, 0x60000000)
  | .unpackStart _ => (0xFFFFFFFE, 0x70000000)
  | .unpackByte _ => (0xFFFFFF00, 0x80000000)
  | .unpackEnd => (0xFFFFFFFF, 0x90000000)
  | .treeWrite _ => (0xFFFFFF00, 0xA0000000)
  | .treeRead _ => (0xFFFFFF00, 0xB0000000)
  | .setRoot _ => (0xFFFFFF00, 0xC0000000)
  | .rdId => (0x00001FFF, 0x00000000)
  | .rdCtrl => (0x00001FFF, 0x00000004)
  | .rdStatus => (0x00001FFF, 0x00000008)
  | .rdArg => (0x00001FFF, 0x0000000C)
  | .rdCmd => (0x00001FFF, 0x00000010)
  | .rdOut => (0x00001FFF, 0x00000014)
  | .rdRoot => (0x00001FFF, 0x00000018)
  | .rdRemain => (0x00001FFF, 0x0000001C)
  | .rdWalk => (0x00001FFF, 0x00000020)
  | .rdPacc => (0x00001FFF, 0x00000024)
  | .rdUnmapped _ => (0x00001003, 0x00000000)
  | .wrCtrl _ => (0x00001FFF, 0x00001004)
  | .wrArg _ => (0x00001FFF, 0x0000100C)
  | .wrCmd _ => (0x00001FFF, 0x00001010)
  | .wrId _ => (0x00001FFF, 0x00001000)
  | .wrStatus _ => (0x00001FFF, 0x00001008)
  | .wrOut _ => (0x00001FFF, 0x00001014)
  | .wrRoot _ => (0x00001FFF, 0x00001018)
  | .wrRemain _ => (0x00001FFF, 0x0000101C)
  | .wrWalk _ => (0x00001FFF, 0x00001020)
  | .wrPacc _ => (0x00001FFF, 0x00001024)
  | .wrUnmapped _ _ => (0x00001003, 0x00001000)

/-- The law. -/
def Statement (i : Instr) : Prop := i.wellFormed = true → codeBits (encode i) &&& (row i).1 = (row i).2

/-- The two low bits of a word-aligned offset are 0. -/
theorem low_bits_of_aligned (o : Offset) (h : Offset.unmapped o = true) : o &&& 3 = 0 := by
  have h4 : o.toNat % 4 = 0 := by
    simp only [Offset.unmapped, Bool.and_eq_true, beq_iff_eq] at h; exact h.2
  apply BitVec.eq_of_toNat_eq
  rw [BitVec.toNat_and]
  simpa [Nat.and_two_pow_sub_one_eq_mod _ 2] using h4

theorem nop : Statement (.nop) := fun _ => rfl

theorem softReset : Statement (.softReset) := fun _ => rfl

theorem abort : Statement (.abort) := fun _ => rfl

theorem packStart : Statement (.packStart) := fun _ => rfl

theorem packBits (n : BitVec 6) : Statement (.packBits n) := fun _ => by revert n; decide

theorem packSym (sym : Byte) : Statement (.packSym sym) := fun _ => by revert sym; decide

theorem packEnd : Statement (.packEnd) := fun _ => rfl

theorem unpackStart (m : UMode) : Statement (.unpackStart m) := fun _ => by cases m <;> rfl

theorem unpackByte (b : Byte) : Statement (.unpackByte b) := fun _ => by revert b; decide

theorem unpackEnd : Statement (.unpackEnd) := fun _ => rfl

theorem treeWrite (idx : Index) : Statement (.treeWrite idx) := fun _ => by revert idx; decide

theorem treeRead (idx : Index) : Statement (.treeRead idx) := fun _ => by revert idx; decide

theorem setRoot (idx : Index) : Statement (.setRoot idx) := fun _ => by revert idx; decide

theorem rdId : Statement (.rdId) := fun _ => rfl

theorem rdCtrl : Statement (.rdCtrl) := fun _ => rfl

theorem rdStatus : Statement (.rdStatus) := fun _ => rfl

theorem rdArg : Statement (.rdArg) := fun _ => rfl

theorem rdCmd : Statement (.rdCmd) := fun _ => rfl

theorem rdOut : Statement (.rdOut) := fun _ => rfl

theorem rdRoot : Statement (.rdRoot) := fun _ => rfl

theorem rdRemain : Statement (.rdRemain) := fun _ => rfl

theorem rdWalk : Statement (.rdWalk) := fun _ => rfl

theorem rdPacc : Statement (.rdPacc) := fun _ => rfl

theorem rdUnmapped (offset : Offset) : Statement (.rdUnmapped offset) := by
  intro h
  have hl := low_bits_of_aligned offset h
  apply BitVec.eq_of_getLsbD_eq
  intro j hj
  have hb : ∀ k, (offset &&& 3).getLsbD k = false := fun k => by rw [hl]; simp
  have h0 := hb 0
  have h1 := hb 1
  simp at h0 h1
  show (((offset.setWidth 13 : BitVec 13).setWidth 32) &&& (0x00001003 : Word)).getLsbD j = _
  interval_cases j <;> simp [h0, h1, row]

theorem wrCtrl (data : Word) : Statement (.wrCtrl data) := fun _ => by
  simp only [codeBits, encode, row, Code.descriptor]; decide

theorem wrArg (data : Word) : Statement (.wrArg data) := fun _ => by
  simp only [codeBits, encode, row, Code.descriptor]; decide

theorem wrCmd (data : Word) : Statement (.wrCmd data) := fun _ => by
  simp only [codeBits, encode, row, Code.descriptor]; decide

theorem wrId (data : Word) : Statement (.wrId data) := fun _ => by
  simp only [codeBits, encode, row, Code.descriptor]; decide

theorem wrStatus (data : Word) : Statement (.wrStatus data) := fun _ => by
  simp only [codeBits, encode, row, Code.descriptor]; decide

theorem wrOut (data : Word) : Statement (.wrOut data) := fun _ => by
  simp only [codeBits, encode, row, Code.descriptor]; decide

theorem wrRoot (data : Word) : Statement (.wrRoot data) := fun _ => by
  simp only [codeBits, encode, row, Code.descriptor]; decide

theorem wrRemain (data : Word) : Statement (.wrRemain data) := fun _ => by
  simp only [codeBits, encode, row, Code.descriptor]; decide

theorem wrWalk (data : Word) : Statement (.wrWalk data) := fun _ => by
  simp only [codeBits, encode, row, Code.descriptor]; decide

theorem wrPacc (data : Word) : Statement (.wrPacc data) := fun _ => by
  simp only [codeBits, encode, row, Code.descriptor]; decide

theorem wrUnmapped (offset : Offset) (data : Word) : Statement (.wrUnmapped offset data) := by
  intro h
  have hl := low_bits_of_aligned offset h
  apply BitVec.eq_of_getLsbD_eq
  intro j hj
  have hb : ∀ k, (offset &&& 3).getLsbD k = false := fun k => by rw [hl]; simp
  have h0 := hb 0
  have h1 := hb 1
  simp at h0 h1
  show (((0x1000 ||| offset.setWidth 13 : BitVec 13).setWidth 32) &&& (0x00001003 : Word)).getLsbD j = _
  interval_cases j <;> simp [h0, h1, row]

end Sys2Proof.Laws.RowMatch
end

