-- ==== Sys2Proof/Tests/Slice0.lean ====
section
/-! SUPPORT. Tests of single decodings and single steps, their expected results taken from spec/95_test_vectors.md (the
row is named in each comment) or from the rule named, and one witness for the hypotheses of every statement of
Certificates/Slice0/Obligations.lean. -/

namespace Sys2Proof.Machine.Test

/-! ## Helpers -/

/-- A machine with OUT_DEPTH = 16 (95, notation) at HBPU_BASE = 0x1000 and no access pending. -/
def st (h : Hbpu) : State := { cfg := ⟨0x1000, 16⟩, hbpu := h, bus := [], replies := [] }

/-- The machine takes the host's access `w` of the opcode table and the next state satisfies `p`. -/
def takes (h : Hbpu) (nbits w : Nat) (p : State → Bool) : Bool :=
  match step ((st h).withFetchWord nbits w) with
  | .next t => p t
  | _ => false

/-- The host writes `d` at offset `o` and the next state satisfies `p`. -/
def writes (h : Hbpu) (o : Nat) (d : Word) (p : State → Bool) : Bool :=
  match step { st h with bus := [.write .word (0x1000 + o) d] } with
  | .next t => p t
  | _ => false

/-- A command leaves the HBPU `h'`. -/
def gives (h : Hbpu) (w : Nat) (h' : Hbpu) : Bool := takes h 32 w (fun t => decide (t = st h'))

/-- A register read returns `v` and leaves the HBPU `h'`. -/
def reads (h : Hbpu) (w : Nat) (v : Word) (h' : Hbpu) : Bool :=
  takes h 16 w (fun t => decide (t = { st h' with replies := [v] }))

/-- A register write leaves the HBPU as it was. -/
def ignored (h : Hbpu) (o : Nat) (d : Word) : Bool := writes h o d (fun t => decide (t = st h))

/-- Tree T1 of 95 §0. -/
def t1 : Memory := [(0, 0x00000201), (1, 0x80000061), (2, 0x00000403), (3, 0x80000062), (4, 0x80000063)]

/-- A pack session after `PSTART 6` (95 S3). -/
def packing : Hbpu := { Hbpu.reset with mode := .pack, arg := 6, acc := 1, accn := 2, remain := 6 }

/-- A pack session after `PSTART 3` (95 S2). -/
def packing3 : Hbpu := { Hbpu.reset with mode := .pack, arg := 3, acc := 1, accn := 5, remain := 3 }

/-- A RAW session with no byte fed yet (95 U1). -/
def rawFresh : Hbpu := { Hbpu.reset with mode := .unpack, first := true }

/-- A DECODE session over T1 with no byte fed yet. -/
def decFresh : Hbpu := { Hbpu.reset with mode := .unpack, umode := .decode, first := true, tree := t1 }

/-- A DECODE session over T1 that stands inside a code (95 U14). -/
def decInside : Hbpu := { decFresh with first := false, walk := 2, inCode := true }

/-- A session whose root is the leaf TREE[5] (95 U17), one byte fed. -/
def decLeafRoot : Hbpu :=
  { Hbpu.reset with mode := .unpack, umode := .decode, tree := [(5, 0x80000061)], root := 5, walk := 5 }

/-- A session that has failed with LENGTH_OVERRUN (95 B7). -/
def failedPack : Hbpu := { packing with mode := .error, err := .lengthOverrun }

/-- Sixteen bytes: OUT full at OUT_DEPTH = 16. -/
def full : List Byte := List.replicate 16 0xFF

/-! ## Well-formedness and decoding -/

/-- Offsets that name a register, or are not word-aligned, are no unmapped offsets (20_memory.md R51, R52). -/
theorem test_ill_formed_refused :
    (Instr.rdUnmapped 0x000).wellFormed = false ∧ (Instr.rdUnmapped 0x024).wellFormed = false ∧
    (Instr.rdUnmapped 0x02A).wellFormed = false ∧ (Instr.wrUnmapped 0x010 1).wellFormed = false ∧
    (Instr.wrUnmapped 0x029 1).wellFormed = false ∧ (Instr.wrUnmapped 0xFFF 1).wellFormed = false := by decide

theorem test_well_formed_accepted :
    (Instr.rdUnmapped 0x028).wellFormed = true ∧ (Instr.wrUnmapped 0xFFC 1).wellFormed = true ∧
    (Instr.packBits 0).wellFormed = true ∧ (Instr.packBits 63).wellFormed = true := by decide

/-- Command words written out from 30_encoding.md R81 and R82: OP in [31:28], the field below. -/
theorem test_decode_commands :
    decodeTableWord 32 0b00000000000000000000000000000000 = some .nop ∧
    decodeTableWord 32 0b00010000000000000000000000000000 = some .softReset ∧
    decodeTableWord 32 0b00100000000000000000000000000000 = some .abort ∧
    decodeTableWord 32 0b00110000000000000000000000000000 = some .packStart ∧
    decodeTableWord 32 0b01000000000000000000000000100001 = some (.packBits 33) ∧
    decodeTableWord 32 0b01010000000000000000000000110001 = some (.packSym 0x31) ∧
    decodeTableWord 32 0b01100000000000000000000000000000 = some .packEnd ∧
    decodeTableWord 32 0b01110000000000000000000000000001 = some (.unpackStart .decode) ∧
    decodeTableWord 32 0b10000000000000000000000001001011 = some (.unpackByte 0x4B) ∧
    decodeTableWord 32 0b10010000000000000000000000000000 = some .unpackEnd ∧
    decodeTableWord 32 0b10100000000000000000000000000111 = some (.treeWrite 7) ∧
    decodeTableWord 32 0b10110000000000000000000010000001 = some (.treeRead 0x81) ∧
    decodeTableWord 32 0b11000000000000000000000000101010 = some (.setRoot 0x2A) := by decide

/-- Reserved opcodes and reserved bits (95 T2, T3, T10, B6, U3; R83, R84). -/
theorem test_decode_rejects :
    decodeTableWord 32 0x00000001 = none ∧ decodeTableWord 32 0xD0000000 = none ∧
    decodeTableWord 32 0xF0000000 = none ∧ decodeTableWord 32 0xA0000100 = none ∧
    decodeTableWord 32 0x40000040 = none ∧ decodeTableWord 32 0x50000131 = none ∧
    decodeTableWord 32 0x70000002 = none ∧ decodeTableWord 16 0x0026 = none := by decide

/-- Descriptors of reads, D = offset, and of writes, D = 0x1000 + offset (30_encoding.md R88). -/
theorem test_decode_reads :
    decodeTableWord 16 0b0000000000000 = some .rdId ∧ decodeTableWord 16 0b0000000000100 = some .rdCtrl ∧
    decodeTableWord 16 0b0000000001000 = some .rdStatus ∧ decodeTableWord 16 0b0000000001100 = some .rdArg ∧
    decodeTableWord 16 0b0000000010000 = some .rdCmd ∧ decodeTableWord 16 0b0000000010100 = some .rdOut ∧
    decodeTableWord 16 0b0000000011000 = some .rdRoot ∧ decodeTableWord 16 0b0000000011100 = some .rdRemain ∧
    decodeTableWord 16 0b0000000100000 = some .rdWalk ∧ decodeTableWord 16 0b0000000100100 = some .rdPacc ∧
    decodeTableWord 16 0b0000100000000 = some (.rdUnmapped 0x100) := by decide

theorem test_decode_writes :
    decodeTableWord 16 0b1000000000000 = some (.wrId 0) ∧ decodeTableWord 16 0b1000000000100 = some (.wrCtrl 0) ∧
    decodeTableWord 16 0b1000000001000 = some (.wrStatus 0) ∧ decodeTableWord 16 0b1000000001100 = some (.wrArg 0) ∧
    decodeTableWord 16 0b1000000010000 = some (.wrCmd 0) ∧ decodeTableWord 16 0b1000000010100 = some (.wrOut 0) ∧
    decodeTableWord 16 0b1000000011000 = some (.wrRoot 0) ∧
    decodeTableWord 16 0b1000000011100 = some (.wrRemain 0) ∧
    decodeTableWord 16 0b1000000100000 = some (.wrWalk 0) ∧ decodeTableWord 16 0b1000000100100 = some (.wrPacc 0) ∧
    decodeTableWord 16 0b1000100000000 = some (.wrUnmapped 0x100 0) := by decide

/-- `withFetchWord` makes the very next step run the word, also from reset. -/
theorem test_fetch_from_reset :
    (match step (State.reset.withFetchWord 32 0xC000002A) with
      | .next t => decide (t.hbpu.root = 0x2A ∧ t.bus = [])
      | _ => false) = true := by decide

/-! ## Control and tree commands -/

theorem test_nop : gives packing 0x00000000 packing = true := by decide -- 95 T1
theorem test_softReset : -- 95 T6
    gives { packing with remain := 5, arg := 9, root := 3, padmode := .compat, tree := t1 } 0x10000000
      { Hbpu.reset with tree := t1 } = true := by decide
theorem test_abort : -- 95 T7
    gives { packing with remain := 5, arg := 9, root := 3, padmode := .compat, out := [2] } 0x20000000
      { Hbpu.reset with arg := 9, root := 3, walk := 3, padmode := .compat } = true := by decide
theorem test_treeWrite_leaf : -- 95 T8
    gives { Hbpu.reset with arg := 0xFFFFFFFF } 0xA0000007
      { Hbpu.reset with arg := 0xFFFFFFFF, tree := [(7, 0x8000007F)] } = true := by decide
theorem test_treeWrite_internal : -- 95 T9, over a stored word
    gives { Hbpu.reset with arg := 0x7FFFFFFF, tree := t1 } 0xA0000001
      { Hbpu.reset with
        arg := 0x7FFFFFFF
        tree := [(0, 0x00000201), (1, 0x0000FFFF), (2, 0x00000403), (3, 0x80000062), (4, 0x80000063)] } = true := by
  decide
theorem test_treeRead : -- 95 T12
    gives { packing with arg := 0x55, tree := t1 } 0xB0000001 { packing with arg := 0x80000061, tree := t1 } = true := by
  decide
theorem test_treeRead_unwritten : -- 10_state.md R36
    (match step ((st Hbpu.reset).withFetchWord 32 0xB0000005) with
      | .fault f => decide (f = .treeUnwritten 5)
      | _ => false) = true := by decide
theorem test_setRoot : -- 95 T13
    gives Hbpu.reset 0xC000002A { Hbpu.reset with root := 0x2A, walk := 0x2A } = true := by decide
theorem test_setRoot_badMode : -- 95 T14
    gives rawFresh 0xC0000000 { rawFresh with err := .badMode } = true := by decide

/-! ## Pack -/

theorem test_packStart_pad : gives { Hbpu.reset with arg := 6 } 0x30000000 packing = true := by decide -- 95 S3
theorem test_packStart_whole : -- 95 S5
    gives { Hbpu.reset with arg := 8 } 0x30000000
      { Hbpu.reset with mode := .pack, arg := 8, remain := 8, out := [1] } = true := by decide
theorem test_packBits : -- 95 B2
    gives { packing3 with arg := 0xFFFFFFFD } 0x40000003
      { packing3 with arg := 0xFFFFFFFD, acc := 0, accn := 0, remain := 0, out := [0x0D] } = true := by decide
set_option maxRecDepth 4000 in
theorem test_packBits_word : -- 95 B9
    gives { Hbpu.reset with mode := .pack, arg := 0x80000001, remain := 32, out := [1] } 0x40000020
      { Hbpu.reset with mode := .pack, arg := 0x80000001, out := [0x01, 0x80, 0x00, 0x00, 0x01] } = true := by decide
theorem test_packSym : -- 95 Y2
    gives { packing with acc := 0b0000110, accn := 7, remain := 1 } 0x50000031
      { packing with acc := 0, accn := 0, remain := 0, out := [0x0D] } = true := by decide
theorem test_packSym_invalid : -- 95 Y4
    gives { Hbpu.reset with mode := .pack, out := [1] } 0x50000078
      { Hbpu.reset with mode := .error, err := .invalidBitString } = true := by decide
theorem test_packEnd : -- 95 N1
    gives { Hbpu.reset with mode := .pack, out := [0x0D] } 0x60000000
      { Hbpu.reset with done := true, out := [0x0D] } = true := by decide
theorem test_packEnd_short : -- 95 N3
    gives { packing3 with acc := 3, accn := 6, remain := 2 } 0x60000000
      { packing3 with acc := 3, accn := 6, remain := 2, mode := .error, err := .lengthShort } = true := by decide

/-! ## Unpack -/

theorem test_unpackStart : -- 95 U2
    gives { Hbpu.reset with tree := t1 } 0x70000001 decFresh = true := by decide
theorem test_unpackStart_notDrained : -- 95 U24
    gives { Hbpu.reset with out := [0x61], done := true } 0x70000001
      { Hbpu.reset with out := [0x61], done := true, err := .notDrained } = true := by decide
theorem test_unpackByte_raw : -- 95 U5
    gives rawFresh 0x800000F0
      { rawFresh with first := false, out := [0x31, 0x31, 0x31, 0x30, 0x30, 0x30, 0x30] } = true := by decide
theorem test_unpackByte_decode : -- 95 U16
    gives decInside 0x80000080
      { decInside with walk := 0, inCode := false, out := [0x63, 0x61, 0x61, 0x61, 0x61, 0x61, 0x61, 0x61] } = true := by
  decide
theorem test_unpackEnd_truncated : -- 95 U15
    gives decInside 0x90000000 { decInside with trunc := true, done := true, mode := .idle } = true := by decide
theorem test_unpackEnd_empty : -- 95 U6
    gives rawFresh 0x90000000 { rawFresh with mode := .error, err := .emptyInput } = true := by decide

/-! ## Register accesses -/

theorem test_rdId : reads packing 0x000 0x48425055 packing = true := by decide -- 95 A1
theorem test_rdCtrl : -- 95 A3
    reads { packing with padmode := .compat } 0x004 1 { packing with padmode := .compat } = true := by decide
theorem test_rdStatus : -- 95 U14 and U16: flags, OUTCNT
    reads decInside 0x008 0x00000086 decInside = true ∧
    (statusWord { decInside with walk := 0, inCode := false, out := List.replicate 8 0x61 }) = 0x00080006 := by decide
theorem test_rdStatus_error : reads failedPack 0x008 0x00000703 failedPack = true := by decide -- 95 B7
theorem test_rdArg : -- 95 A4
    reads { packing with arg := 0x12345678 } 0x00C 0x12345678 { packing with arg := 0x12345678 } = true := by decide
theorem test_rdCmd : reads packing 0x010 0 packing = true := by decide -- 95 A5
theorem test_rdOut : -- 95 A6
    reads { Hbpu.reset with out := [0x4B, 0x07] } 0x014 0x0000014B { Hbpu.reset with out := [0x07] } = true := by decide
theorem test_rdOut_empty : reads Hbpu.reset 0x014 0 Hbpu.reset = true := by decide -- 95 A6
theorem test_rdRoot : -- 95 A12
    reads { Hbpu.reset with root := 5, walk := 6 } 0x018 5 { Hbpu.reset with root := 5, walk := 6 } = true := by decide
theorem test_rdRemain : reads packing 0x01C 6 packing = true := by decide -- 95 A11
theorem test_rdWalk : -- 95 A12
    reads { Hbpu.reset with root := 4, walk := 5 } 0x020 5 { Hbpu.reset with root := 4, walk := 5 } = true := by decide
theorem test_rdPacc : reads packing3 0x024 0x00000501 packing3 = true := by decide -- 95 S2
theorem test_rdUnmapped : reads packing 0x100 0 packing = true := by decide -- 95 A10
theorem test_wrCtrl : -- 95 A3
    writes packing 0x004 0xFFFFFFFF (fun t => decide (t = st { packing with padmode := .compat })) = true := by decide
theorem test_wrArg : -- 95 A4
    writes packing 0x00C 0x12345678 (fun t => decide (t = st { packing with arg := 0x12345678 })) = true := by decide
theorem test_wrCmd_reserved : -- 95 T3
    writes Hbpu.reset 0x010 0xD0000000 (fun t => decide (t = st { Hbpu.reset with err := .illegalCmd })) = true := by
  decide
theorem test_wrCmd_first_stays : -- 95 T4
    ignored { Hbpu.reset with err := .illegalCmd } 0x010 0xF0000000 = true := by decide
theorem test_ignored_writes : -- 95 A7, A8, A9, A10; R105
    ignored packing 0x000 1 = true ∧ ignored packing 0x008 0xFFFFFFFF = true ∧
    ignored { packing with out := [1] } 0x014 0x77 = true ∧ ignored packing 0x018 5 = true ∧
    ignored packing 0x01C 5 = true ∧ ignored packing 0x020 5 = true ∧ ignored packing 0x024 5 = true ∧
    ignored packing 0x100 1 = true := by decide

/-- The reset memory and the tree T1 are in canonical form, and a list out of order or out of range is not. -/
theorem test_memory_wf :
    Memory.wf State.reset.hbpu.tree = true ∧ Memory.wf t1 = true ∧ Memory.wf [(1, 0), (0, 0)] = false ∧
    Memory.wf [(256, 0)] = false := by decide

/-! ## Witnesses: states and operands that meet the hypotheses of each statement, all together

A statement with several clauses has one conjunct a clause, at the ends of its range. -/

/-- The invariant holds in a pack session, inside a code of a DECODE session, in an unpack session's start, after a
failure and at rest with a tree loaded. -/
theorem witness_inv_packing : Inv (st packing) := by
  constructor <;> decide
theorem witness_inv_decInside : Inv (st decInside) := by
  constructor <;> first | exact fun _ _ => ⟨_, rfl, rfl⟩ | decide
theorem witness_inv_decFresh : Inv (st decFresh) := by
  constructor <;> decide
theorem witness_inv_decLeafRoot : Inv (st decLeafRoot) := by
  constructor <;> decide
theorem witness_inv_failedPack : Inv (st failedPack) := by
  constructor <;> decide
theorem witness_inv_idle : Inv (st { Hbpu.reset with tree := t1 }) := by
  constructor <;> decide

theorem witness_StepRunsTheDecodedAccess :
    decode (.rd 0x000) = .ok .rdId ∧ decode (.rd 0xFFC) = .ok (.rdUnmapped 0xFFC) ∧
    decode (.wr 0xFFC 5) = .ok (.wrUnmapped 0xFFC 5) ∧
    ({ st packing with bus := [.read .word (0x1000 + (0xFFC : Offset).toNat), .reset] } : State).bus =
      .read .word (0x1000 + (0xFFC : Offset).toNat) :: [.reset] := by decide
theorem witness_StepRunsTheCommandWrittenToCmd :
    decode (.cmd 0x40000006) = .ok (.packBits 6) ∧
    ({ st packing with bus := [.write .word 0x1010 0x40000006] } : State).bus =
      .write .word (0x1000 + 0x010) 0x40000006 :: [] := by decide
/-- Below, above, at the two ends of the block misaligned, and at its two ends. -/
theorem witness_OnlyAlignedWordAccessesHaveAStep :
    (AccessSize.byte ≠ .word ∧ AccessSize.half ≠ .word) ∧ 0x0FFF < (st packing).cfg.hbpuBase ∧
    (st packing).cfg.hbpuBase + 0x1000 ≤ 0x2000 ∧
    (∀ a ∈ [0x1001, 0x1FFF], (st packing).cfg.hbpuBase ≤ a ∧ a < (st packing).cfg.hbpuBase + 0x1000 ∧
      (a - (st packing).cfg.hbpuBase) % 4 ≠ 0) ∧
    ∀ a ∈ [0x1000, 0x1FFC], (st packing).cfg.hbpuBase ≤ a ∧ a < (st packing).cfg.hbpuBase + 0x1000 ∧
      (a - (st packing).cfg.hbpuBase) % 4 = 0 := by decide
theorem witness_NoPendingAccessNoChange : (st packing).bus = [] := rfl
theorem witness_ResetInputSetsResetValues :
    ({ st decInside with bus := [.reset, .read .word 0x1000] } : State).bus = .reset :: [.read .word 0x1000] := rfl
theorem witness_DecodeOfEncodeIsTheInstruction :
    (Instr.wrUnmapped 0x028 7).wellFormed = true ∧ (Instr.rdUnmapped 0xFFC).wellFormed = true := by decide
theorem witness_EncodeOfDecodeIsTheCode : decode (.cmd 0xC00000FF) = .ok (.setRoot 0xFF) := rfl
theorem witness_IllegalCommandWordsAreRejected :
    LegalWord 0xC00000FF ∧ ¬ LegalWord 0xC0000100 ∧ ¬ LegalWord 0xD0000000 ∧ ¬ LegalWord 0x40000040 := by
  unfold LegalWord; decide
theorem witness_ConstantReads :
    ∀ o ∈ ([0x028, 0xFFC] : List Offset), 0x028 ≤ o.toNat ∧ o.toNat % 4 = 0 := by decide
theorem witness_StatusWordFields : (st { packing with out := full }).hbpu.out.length ≤ 255 := by decide
theorem witness_ReadOfOutPopsTheHead :
    (st packing).hbpu.out = [] ∧ (st { packing with out := [0xFF] }).hbpu.out = 0xFF :: [] := ⟨rfl, rfl⟩
theorem witness_ReadOnlyWritesAreIgnored :
    ∀ o ∈ ([0x028, 0xFFC] : List Offset), 0x028 ≤ o.toNat ∧ o.toNat % 4 = 0 := by decide
theorem witness_OtherAccessesKeepTheDevice :
    isCommand (.rdUnmapped 0x028) = false ∧ Instr.rdUnmapped 0x028 ≠ .rdOut ∧
    (∀ d, Instr.rdUnmapped 0x028 ≠ .wrCtrl d) ∧ (∀ d, Instr.rdUnmapped 0x028 ≠ .wrArg d) ∧
    ∀ w, Instr.rdUnmapped 0x028 ≠ .wrCmd w := ⟨rfl, nofun, nofun, nofun, nofun⟩
theorem witness_WriteToCmdExecutesTheCommand :
    decode (.cmd 0xB00000FF) = .ok (.treeRead 0xFF) ∧ decode (.cmd 0xFFFFFFFF) = .error .reservedOpcode := ⟨rfl, rfl⟩
theorem witness_NopHasNoEffect : (0x0FFFFFFF : Word) >>> 28 = 0 ∧ (0x0FFFFFFF : Word) ≠ 0 := by decide
theorem witness_TreeWriteStoresTheCanonicalWord :
    (st packing).hbpu.mode ≠ .idle ∧ (st Hbpu.reset).hbpu.mode = .idle ∧ (0 : Index) ≠ 255 := by decide
theorem witness_TreeReadMovesTheEntryToArg :
    (st decInside).hbpu.tree.read 4 = some 0x80000063 ∧ Inv (st decInside) ∧ (st decInside).hbpu.tree.read 255 = none :=
  ⟨rfl, witness_inv_decInside, rfl⟩
theorem witness_SetRootSetsRootAndWalk :
    (st Hbpu.reset).hbpu.mode = .idle ∧ (st rawFresh).hbpu.mode ≠ .idle := by decide
theorem witness_ModeLegality :
    isCommand .packEnd = true ∧ (st rawFresh).hbpu.mode ∉ acceptingModes .packEnd ∧
    (st packing).hbpu.mode ∈ acceptingModes .packEnd ∧ (st packing).hbpu.err = .none ∧
    ∃ t, exec .packEnd (st packing) = .next t :=
  ⟨rfl, by decide, by decide, rfl, _, rfl⟩

/-! ### Pack -/

/-- L = 8 (p = 8), L = 7 (p = 1) and L = 0xFFFFFFFF. -/
theorem witness_PackStartEmitsThePadding :
    (st packing).hbpu.mode ≠ .idle ∧
    ((st { Hbpu.reset with out := [1] }).hbpu.mode = .idle ∧ (st { Hbpu.reset with out := [1] }).hbpu.out ≠ []) ∧
    ((st Hbpu.reset).hbpu.mode = .idle ∧ (st Hbpu.reset).hbpu.out = []) ∧
    (∀ a ∈ ([0, 8] : List Word), (st { Hbpu.reset with arg := a }).hbpu.arg.toNat % 8 = 0) ∧
    (∀ a ∈ ([1, 7] : List Word), (st { Hbpu.reset with arg := a }).hbpu.arg.toNat % 8 ≠ 0) ∧
    (st { Hbpu.reset with arg := 0xFFFFFFFF }).hbpu.arg.toNat % 8 ≠ 0 :=
  ⟨by decide, by decide, by decide, by simp [st], by simp [st], by simp [st]⟩
theorem witness_PushBitAppendsOneBit : ({ packing with accn := 7 }).accn.toNat = 7 ∧ packing.accn.toNat ≠ 7 := by decide
/-- N = 0, 33 and 63; N = 1 and 32; one bit too many; a byte too many for a full OUT; and exactly fitting. -/
theorem witness_PackBitsPushesTheLowBitsOfArg :
    (st rawFresh).hbpu.mode ≠ .pack ∧ (st packing).hbpu.mode = .pack ∧
    (∀ n ∈ ([0, 33, 63] : List (BitVec 6)), n.toNat = 0 ∨ 32 < n.toNat) ∧
    (∀ n ∈ ([1, 32] : List (BitVec 6)), 1 ≤ n.toNat ∧ n.toNat ≤ 32) ∧
    (st packing).hbpu.remain.toNat < (7 : BitVec 6).toNat ∧ (6 : BitVec 6).toNat ≤ (st packing).hbpu.remain.toNat ∧
    (st { packing with out := full }).cfg.outDepth - (st { packing with out := full }).hbpu.out.length <
      ((st { packing with out := full }).hbpu.accn.toNat + (6 : BitVec 6).toNat) / 8 ∧
    ((st packing).hbpu.accn.toNat + (6 : BitVec 6).toNat) / 8 ≤
      (st packing).cfg.outDepth - (st packing).hbpu.out.length := by decide
theorem witness_PackBitsExtendsTheBitString :
    (st packing).hbpu.mode = .pack ∧ 1 ≤ (6 : BitVec 6).toNat ∧ (6 : BitVec 6).toNat ≤ 32 ∧
    (6 : BitVec 6).toNat ≤ (st packing).hbpu.remain.toNat ∧
    ((st packing).hbpu.accn.toNat + (6 : BitVec 6).toNat) / 8 ≤
      (st packing).cfg.outDepth - (st packing).hbpu.out.length := by decide
theorem witness_PackSymPushesOneSymbol :
    (st rawFresh).hbpu.mode ≠ .pack ∧ (st packing).hbpu.mode = .pack ∧ (0xB0 : Byte) ≠ 0x30 ∧ (0xB0 : Byte) ≠ 0x31 ∧
    (st { packing with remain := 0 }).hbpu.remain = 0 ∧ (st packing).hbpu.remain ≠ 0 ∧
    (st { packing with out := full, accn := 7 }).cfg.outDepth -
      (st { packing with out := full, accn := 7 }).hbpu.out.length <
        ((st { packing with out := full, accn := 7 }).hbpu.accn.toNat + 1) / 8 ∧
    ((st { packing with out := full, accn := 6 }).hbpu.accn.toNat + 1) / 8 ≤
      (st { packing with out := full, accn := 6 }).cfg.outDepth -
        (st { packing with out := full, accn := 6 }).hbpu.out.length := by decide
theorem witness_PackEndNeedsEveryBit :
    (st rawFresh).hbpu.mode ≠ .pack ∧ ((st packing).hbpu.mode = .pack ∧ (st packing).hbpu.remain ≠ 0) ∧
    ((st { packing with remain := 0 }).hbpu.mode = .pack ∧ (st { packing with remain := 0 }).hbpu.remain = 0) := by
  decide
theorem witness_PackEndLeavesNoBitWaiting :
    ∃ s t : State, Inv s ∧ s.hbpu.mode = .pack ∧ exec .packEnd s = .next t ∧ t.hbpu.mode = .idle :=
  ⟨st { Hbpu.reset with mode := .pack, out := [0x0D] }, _, by constructor <;> decide, rfl, rfl, rfl⟩
theorem witness_SplitOfPushesDoesNotShow :
    (st packing).hbpu.mode = .pack ∧ 1 ≤ (1 : BitVec 6).toNat ∧ 1 ≤ (5 : BitVec 6).toNat ∧
    (1 : BitVec 6).toNat + (5 : BitVec 6).toNat ≤ 32 ∧
    (1 : BitVec 6).toNat + (5 : BitVec 6).toNat ≤ (st packing).hbpu.remain.toNat ∧
    ((st packing).hbpu.accn.toNat + ((1 : BitVec 6).toNat + (5 : BitVec 6).toNat)) / 8 ≤
      (st packing).cfg.outDepth - (st packing).hbpu.out.length := by decide

/-- A pack session of three bits with a rejected push, a drained byte and a read among them (95 E1). -/
def packRun : List Instr := [.wrArg 5, .packBits 33, .wrCmd 0x40000002, .rdPacc, .packSym 0x31, .rdOut]

theorem witness_PackSessionMakesThePackedFile :
    ∃ (t u : State) (x : Session),
      exec .packStart (st { Hbpu.reset with arg := 3 }) = .next t ∧
      (st { Hbpu.reset with arg := 3 }).hbpu.mode = .idle ∧ t.hbpu.mode = .pack ∧
      (∀ i ∈ packRun, staysInSession i = true) ∧
      Session.run packRun { st := t, pushed := [], fed := [], drained := [] } = some x ∧
      exec .packEnd x.st = .next u ∧ u.hbpu.mode = .idle :=
  ⟨_, _, _, rfl, rfl, rfl, by decide, rfl, rfl, rfl⟩

/-! ### Unpack and decode -/

theorem witness_FirstBytePayload : (0x01 : Byte) ≠ 0 ∧ (0xFF : Byte) ≠ 0 := by decide
theorem witness_MalformedAndLaterBytes :
    ((st rawFresh).hbpu.mode = .unpack ∧ (st rawFresh).hbpu.first = true ∧ (st rawFresh).hbpu.padmode = .strict) ∧
    (st { decFresh with padmode := .compat }).hbpu.padmode = .compat := by decide
/-- A leaf; an internal node with a leaf below; an internal node with an internal node below. -/
theorem witness_WalkBitMovesOneEdge :
    (t1.read 1 = some 0x80000061 ∧ (0x80000061 : Word).getLsbD 31 = true) ∧
    (t1.read 0 = some 0x00000201 ∧ (0x00000201 : Word).getLsbD 31 = false) ∧
    t1.read ((0x00000201 : Word).extractLsb' 0 8) = some 0x80000061 ∧
    t1.read ((0x00000201 : Word).extractLsb' 8 8) = some 0x00000403 ∧ (0x00000403 : Word).getLsbD 31 = false := by
  decide
theorem witness_UnpackStartOpensTheSession :
    (st packing).hbpu.mode ≠ .idle ∧
    ((st { Hbpu.reset with out := [1] }).hbpu.mode = .idle ∧ (st { Hbpu.reset with out := [1] }).hbpu.out ≠ []) ∧
    ((st Hbpu.reset).hbpu.mode = .idle ∧ (st Hbpu.reset).hbpu.out = []) := by decide
/-- No first byte; a malformed one; OUT with seven free places for eight symbols, and for the seven of 0x80. -/
theorem witness_UnpackByteRaw :
    (st packing).hbpu.mode ≠ .unpack ∧
    ((st rawFresh).hbpu.mode = .unpack ∧ byteBits (st rawFresh).hbpu.first (st rawFresh).hbpu.padmode 0 = none) ∧
    ((st rawFresh).hbpu.umode = .raw ∧
      byteBits true .strict 0x80 = some (List.replicate 7 false, false)) ∧
    16 - (List.replicate 9 (0xFF : Byte)).length < (bits8 0xFF).length ∧
    (List.replicate 7 false).length ≤ 16 - (List.replicate 9 (0xFF : Byte)).length := by decide
/-- A leaf root; an entry never written; a byte that fits and one that does not. -/
theorem witness_UnpackByteDecode :
    ((st decLeafRoot).hbpu.mode = .unpack ∧ (st decLeafRoot).hbpu.umode = .decode ∧
      byteBits (st decLeafRoot).hbpu.first (st decLeafRoot).hbpu.padmode 0x80 = some (bits8 0x80, false) ∧
      walkBits decLeafRoot.tree 5 (bits8 0x80) ⟨5, false, []⟩ = .error .atLeaf) ∧
    walkBits [(0, 0x00000201)] 0 (bits8 0x80) ⟨0, false, []⟩ = .error (.unwritten 2) ∧
    walkBits t1 0 (bits8 0x80) ⟨2, true, []⟩ = .ok ⟨0, false, [0x63, 0x61, 0x61, 0x61, 0x61, 0x61, 0x61, 0x61]⟩ ∧
    16 - (List.replicate 9 (0xFF : Byte)).length < 8 ∧ 8 ≤ 16 - (List.replicate 8 (0xFF : Byte)).length :=
  ⟨⟨rfl, rfl, rfl, rfl⟩, rfl, rfl, by decide, by decide⟩
theorem witness_UnpackEndReportsTruncation :
    (st packing).hbpu.mode ≠ .unpack ∧ ((st rawFresh).hbpu.mode = .unpack ∧ (st rawFresh).hbpu.first = true) ∧
    ((st decInside).hbpu.mode = .unpack ∧ (st decInside).hbpu.first = false) := by decide
theorem witness_PadmodeIsSampledAtTheFirstByte :
    ((st rawFresh).hbpu.mode = .unpack ∧ (st rawFresh).hbpu.first = true ∧
      (∃ t, exec (.wrCtrl 1) (st rawFresh) = .next t) ∧ (∃ t, exec (.wrCtrl 0xFFFFFFFE) (st rawFresh) = .next t) ∧
      (1 : Word).getLsbD 0 = true ∧ (0xFFFFFFFE : Word).getLsbD 0 = false) ∧
    (st decInside).hbpu.first = false ∧ ∃ u, exec (.unpackByte 0x80) (st decInside) = .next u :=
  ⟨⟨rfl, rfl, ⟨_, rfl⟩, ⟨_, rfl⟩, rfl, rfl⟩, rfl, _, rfl⟩
/-- Under a leaf root (95 U18) and under an internal root (95 U16). -/
theorem witness_TreeFaultExactlyUnderALeafRoot :
    (Inv (st decLeafRoot) ∧ (st decLeafRoot).hbpu.mode = .unpack ∧ (st decLeafRoot).hbpu.umode = .decode ∧
      byteBits (st decLeafRoot).hbpu.first (st decLeafRoot).hbpu.padmode 0x80 =
        some (true :: List.replicate 7 false, false) ∧
      (st decLeafRoot).hbpu.tree.read (st decLeafRoot).hbpu.root = some 0x80000061 ∧ nodeIsLeaf 0x80000061 = true) ∧
    (Inv (st decInside) ∧ (st decInside).hbpu.mode = .unpack ∧ (st decInside).hbpu.umode = .decode ∧
      byteBits (st decInside).hbpu.first (st decInside).hbpu.padmode 0x80 =
        some (true :: List.replicate 7 false, false) ∧
      (st decInside).hbpu.tree.read (st decInside).hbpu.root = some 0x00000201 ∧ nodeIsLeaf 0x00000201 = false) :=
  ⟨⟨witness_inv_decLeafRoot, rfl, rfl, rfl, rfl, rfl⟩, witness_inv_decInside, rfl, rfl, rfl, rfl, rfl⟩
/-- COMPAT is set inside the session; the first byte is 0x00 and then 0x5A (95 U8 to U10). -/
theorem witness_RawSessionGivesTheSymbols :
    ∃ (t u : State) (x : Session),
      exec (.unpackStart .raw) (st Hbpu.reset) = .next t ∧ (st Hbpu.reset).hbpu.mode = .idle ∧
      t.hbpu.mode = .unpack ∧
      (∀ i ∈ [.wrCtrl 1, .unpackByte 0, .rdOut, .wrCmd 0x8000005A, .rdOut], staysInSession i = true) ∧
      Session.run [.wrCtrl 1, .unpackByte 0, .rdOut, .wrCmd 0x8000005A, .rdOut]
        { st := t, pushed := [], fed := [], drained := [] } = some x ∧
      exec .unpackEnd x.st = .next u ∧ u.hbpu.mode = .idle :=
  ⟨_, _, _, rfl, rfl, rfl, by decide, rfl, rfl, rfl⟩

/-- The decode tree of T1 (95 §0). -/
def t1Left : HuffTree := .leaf 0x61
def t1Right : HuffTree := .node (.leaf 0x62) (.leaf 0x63)

theorem t1_held : (HuffTree.node t1Left t1Right).heldAt t1 0 :=
  ⟨_, rfl, rfl, ⟨_, rfl, rfl, rfl⟩, _, rfl, rfl, ⟨_, rfl, rfl, rfl⟩, _, rfl, rfl, rfl⟩

/-- The file 0x4B over T1, with a drain in between (95 U12, U13). -/
theorem witness_DecodeSessionGivesTheText :
    ∃ (t u : State) (x : Session),
      (HuffTree.node t1Left t1Right).heldAt (st { Hbpu.reset with tree := t1 }).hbpu.tree
        (st { Hbpu.reset with tree := t1 }).hbpu.root ∧
      exec (.unpackStart .decode) (st { Hbpu.reset with tree := t1 }) = .next t ∧
      (st { Hbpu.reset with tree := t1 }).hbpu.mode = .idle ∧ t.hbpu.mode = .unpack ∧
      (∀ i ∈ [.unpackByte 0x4B, .rdOut, .treeRead 1], staysInSession i = true) ∧
      Session.run [.unpackByte 0x4B, .rdOut, .treeRead 1] { st := t, pushed := [], fed := [], drained := [] } =
        some x ∧
      exec .unpackEnd x.st = .next u ∧ u.hbpu.mode = .idle :=
  ⟨_, _, _, t1_held, rfl, rfl, rfl, by decide, rfl, rfl, rfl⟩
theorem witness_DecodeOfCodesIsTheText :
    ∀ e ∈ ([([false], 0x61), ([true, false], 0x62), ([true, true], 0x63)] : List (List Bool × BitVec 7)),
      (HuffTree.node t1Left t1Right).leafAt e.1 = some e.2 := by decide

/-! ### Errors and whole-machine rules -/

/-- A rejection, a fatal error and the ABORT that clears it. -/
theorem witness_ErrorsChangeNothingElse :
    (∃ t, exec .packEnd (st Hbpu.reset) = .next t ∧ t.hbpu.err ≠ (st Hbpu.reset).hbpu.err) ∧
    (∃ t, exec .packEnd (st packing) = .next t ∧ t.hbpu.err ≠ (st packing).hbpu.err) ∧
    ∃ t, exec (.wrCmd 0x20000000) (st failedPack) = .next t ∧ t.hbpu.err ≠ (st failedPack).hbpu.err :=
  ⟨⟨_, rfl, by decide⟩, ⟨_, rfl, by decide⟩, _, rfl, by decide⟩
/-- Each of the six arrows, and the reset input. -/
theorem witness_ModeChangesOnlyAlongTheArrows :
    (∃ t, exec .packStart (st Hbpu.reset) = .next t ∧ t.hbpu.mode ≠ (st Hbpu.reset).hbpu.mode) ∧
    (∃ t, exec .packEnd (st { packing with remain := 0 }) = .next t ∧ t.hbpu.mode ≠ Mode.pack) ∧
    (∃ t, exec (.unpackStart .raw) (st Hbpu.reset) = .next t ∧ t.hbpu.mode ≠ (st Hbpu.reset).hbpu.mode) ∧
    (∃ t, exec .unpackEnd (st decInside) = .next t ∧ t.hbpu.mode ≠ (st decInside).hbpu.mode) ∧
    (∃ t, exec (.unpackByte 0) (st rawFresh) = .next t ∧ t.hbpu.mode ≠ (st rawFresh).hbpu.mode) ∧
    (∃ t, exec .abort (st failedPack) = .next t ∧ t.hbpu.mode ≠ (st failedPack).hbpu.mode) ∧
    ∃ t, step { st packing with bus := [.reset] } = .next t :=
  ⟨⟨_, rfl, by decide⟩, ⟨_, rfl, by decide⟩, ⟨_, rfl, by decide⟩, ⟨_, rfl, by decide⟩, ⟨_, rfl, by decide⟩,
    ⟨_, rfl, by decide⟩, _, rfl⟩
theorem witness_ErrorModeKeepsTheFatalCode :
    Inv (st failedPack) ∧ (st failedPack).hbpu.mode = .error ∧ isCommand .packEnd = true ∧ Instr.packEnd ≠ .nop ∧
    Instr.packEnd ≠ .softReset ∧ Instr.packEnd ≠ .abort ∧ ∀ idx, Instr.packEnd ≠ .treeRead idx :=
  ⟨witness_inv_failedPack, rfl, rfl, nofun, nofun, nofun, nofun⟩
/-- The smallest and the largest OUT_DEPTH, with OUT_FULL still in ERR: the retry after a drain. -/
theorem witness_EmptyOutIsNeverFull :
    ∀ d ∈ [8, 255], ({ st { packing with err := .outFull } with cfg := ⟨0, d⟩ } : State).cfg.legal ∧
      ({ st { packing with err := .outFull } with cfg := ⟨0, d⟩ } : State).hbpu.out = [] ∧
      ({ st { packing with err := .outFull } with cfg := ⟨0, d⟩ } : State).hbpu.err = .outFull := by decide
/-- The retry leaves OUT_FULL in ERR; a push of one bit and of all six; a symbol. -/
theorem witness_EmptyOutIsNeverFull_pack :
    (∃ t, exec (.packBits 6) (st { packing with err := .outFull }) = .next t ∧ t.hbpu.err = .outFull) ∧
    (st packing).hbpu.mode = .pack ∧ (1 ≤ (1 : BitVec 6).toNat ∧ (1 : BitVec 6).toNat ≤ 32) ∧
    (6 : BitVec 6).toNat ≤ (st packing).hbpu.remain.toNat ∧ (st packing).hbpu.remain ≠ 0 :=
  ⟨⟨_, rfl, rfl⟩, rfl, by decide, by decide, by decide⟩
/-- A RAW first byte with OUT empty, and a DECODE byte that emits eight characters (95 U16). -/
theorem witness_EmptyOutIsNeverFull_unpack :
    ((st rawFresh).cfg.legal ∧ (st rawFresh).hbpu.out = [] ∧ (st rawFresh).hbpu.mode = .unpack ∧
      (st rawFresh).hbpu.umode = .raw ∧
      byteBits (st rawFresh).hbpu.first (st rawFresh).hbpu.padmode 0x80 = some (List.replicate 7 false, false)) ∧
    ((st decInside).cfg.legal ∧ (st decInside).hbpu.out = [] ∧ (st decInside).hbpu.mode = .unpack ∧
      (st decInside).hbpu.umode = .decode ∧
      byteBits (st decInside).hbpu.first (st decInside).hbpu.padmode 0x80 = some (bits8 0x80, false) ∧
      walkBits (st decInside).hbpu.tree (st decInside).hbpu.root (bits8 0x80) ⟨2, true, []⟩ =
        .ok ⟨0, false, [0x63, 0x61, 0x61, 0x61, 0x61, 0x61, 0x61, 0x61]⟩) :=
  ⟨⟨by decide, rfl, rfl, rfl, rfl⟩, by decide, rfl, rfl, rfl, rfl, rfl⟩
theorem witness_TreeIsFixedOutsideIdle :
    (st decInside).hbpu.mode ≠ .idle ∧ plain (.treeWrite 2) ≠ .softReset ∧
    ∃ t, exec (.treeWrite 2) (st decInside) = .next t := ⟨by decide, by decide, _, rfl⟩
theorem witness_ArgIsReadAndWrittenOnlyByItsUsers :
    (∀ d, plain (.unpackByte 0x80) ≠ .wrArg d) ∧ (∀ i, plain (.unpackByte 0x80) ≠ .treeRead i) ∧
    plain (.unpackByte 0x80) ≠ .softReset ∧ plain (.unpackByte 0x80) ≠ .packStart ∧
    (∀ n, plain (.unpackByte 0x80) ≠ .packBits n) ∧ (∀ i, plain (.unpackByte 0x80) ≠ .treeWrite i) ∧
    plain (.unpackByte 0x80) ≠ .rdArg ∧ ∃ t, exec (.unpackByte 0x80) (st decInside) = .next t :=
  ⟨nofun, nofun, nofun, nofun, nofun, nofun, nofun, _, rfl⟩

/-- A tree RAM with every entry written. -/
def fullTree : Memory := (List.range 256).map (fun k => (k, 0))

theorem fullTree_find (n : Nat) (l : List Nat) (h : n ∈ l) : Memory.find (l.map (fun k => (k, 0))) n ≠ none := by
  induction l with
  | nil => cases h
  | cons k l ih =>
    rw [List.map_cons, Memory.find]
    split
    · nofun
    · next hk => exact ih ((List.mem_cons.1 h).resolve_left (fun e => hk e.symm))

theorem witness_OnlyUnwrittenEntriesStop :
    exec (.treeRead 9) (st decInside) = .fault (.treeUnwritten 9) ∧ TreeFull (st { packing with tree := fullTree }) :=
  ⟨rfl, fun i => fullTree_find i.toNat _ (List.mem_range.2 i.isLt)⟩
theorem witness_InstructionsKeepTheHostSide :
    (∃ t, exec .rdOut (st packing) = .next t) ∧ (∃ o, encode .rdOut = .rd o) ∧
    (∃ t, exec .abort (st packing) = .next t) ∧ ∀ o, encode .abort ≠ .rd o :=
  ⟨⟨_, rfl⟩, ⟨_, rfl⟩, ⟨_, rfl⟩, nofun⟩
theorem witness_InvariantHoldsAtReset : Config.default.legal ∧ Config.legal ⟨0, 8⟩ ∧ Config.legal ⟨0, 255⟩ := by decide
theorem witness_StepKeepsTheInvariant :
    Inv { st packing with bus := [.write .word 0x1010 0x40000006] } ∧
    ∃ t, step { st packing with bus := [.write .word 0x1010 0x40000006] } = .next t :=
  ⟨{ witness_inv_packing with }, _, rfl⟩

end Sys2Proof.Machine.Test
end

namespace Sys2Proof.Machine

/-- Settles O4: with an empty queue `step` takes its first branch, which serves no event and answers the state it was
given (00_scope.md R12, log 1). -/
theorem noPendingAccessNoChange : Obligations.NoPendingAccessNoChange := by
  intro s hbus
  simp only [step, hbus]

end Sys2Proof.Machine

namespace Sys2Proof.Machine

/-! ## The invariant, MODE by MODE (10_state.md R30, R41, R42; 43_unpack_decode.md R182) -/

/-- The clauses of `Inv` that do not speak of MODE. -/
structure DataInv (s : State) : Prop where
  legal : s.cfg.legal
  outFits : s.hbpu.out.length ≤ s.cfg.outDepth
  treeWf : Memory.wf s.hbpu.tree = true
  treeCanon : ∀ e ∈ s.hbpu.tree, canon e.2 = e.2
  accBelow : s.hbpu.acc.toNat < 2 ^ s.hbpu.accn.toNat

/-- Where a walk may stand (43_unpack_decode.md R182): at the root outside a code, and inside a code at an internal
node under an internal root. -/
structure Placed (m : Memory) (root node : Index) (inCode : Bool) : Prop where
  atRoot : inCode = false → node = root
  inside : inCode = true → Inside m node
  rootInside : inCode = true → Inside m root

/-- What the clauses of `Inv` that speak of MODE come to in each MODE. -/
def ModeInv (h : Hbpu) : Prop :=
  match h.mode with
  | .idle => h.accn = 0 ∧ h.remain = 0 ∧ h.first = false
  | .pack => (h.accn.toNat + h.remain.toNat) % 8 = 0 ∧ h.done = false ∧ h.first = false
  | .unpack =>
    h.accn = 0 ∧ h.remain = 0 ∧ h.done = false ∧ (h.umode = .raw → h.inCode = false) ∧
      Placed h.tree h.root h.walk h.inCode
  | .error => h.out = [] ∧ h.err.fatal = true ∧ h.done = false

theorem modeInv_idle {h : Hbpu} (hm : h.mode = .idle) :
    ModeInv h ↔ h.accn = 0 ∧ h.remain = 0 ∧ h.first = false := by simp only [ModeInv, hm]

theorem modeInv_pack {h : Hbpu} (hm : h.mode = .pack) :
    ModeInv h ↔ (h.accn.toNat + h.remain.toNat) % 8 = 0 ∧ h.done = false ∧ h.first = false := by
  simp only [ModeInv, hm]

theorem modeInv_unpack {h : Hbpu} (hm : h.mode = .unpack) :
    ModeInv h ↔ h.accn = 0 ∧ h.remain = 0 ∧ h.done = false ∧ (h.umode = .raw → h.inCode = false) ∧
      Placed h.tree h.root h.walk h.inCode := by
  simp only [ModeInv, hm]

theorem modeInv_error {h : Hbpu} (hm : h.mode = .error) :
    ModeInv h ↔ h.out = [] ∧ h.err.fatal = true ∧ h.done = false := by simp only [ModeInv, hm]

theorem Inv.dataInv {s : State} (h : Inv s) : DataInv s := { h with }

theorem Inv.modeInv {s : State} (h : Inv s) : ModeInv s.hbpu := by
  have hf : s.hbpu.mode ≠ .unpack → s.hbpu.mode ≠ .error → s.hbpu.first = false := fun hu he =>
    Bool.eq_false_iff.2 fun e => (h.firstUnpack e).elim hu he
  cases hm : s.hbpu.mode with
  | idle =>
    obtain ⟨hn, hr⟩ := h.idleClean hm
    exact (modeInv_idle hm).2 ⟨hn, hr, hf (by simp [hm]) (by simp [hm])⟩
  | pack =>
    exact (modeInv_pack hm).2 ⟨h.packAligned hm, h.doneIdle (by simp [hm]), hf (by simp [hm]) (by simp [hm])⟩
  | unpack =>
    obtain ⟨hn, hr⟩ := h.unpackClean hm
    exact (modeInv_unpack hm).2
      ⟨hn, hr, h.doneIdle (by simp [hm]), h.rawWhole hm, h.walkAtRoot hm, h.walkInside hm, h.rootInside hm⟩
  | error => exact (modeInv_error hm).2 ⟨h.errorEmpty hm, h.errorFatal hm, h.doneIdle (by simp [hm])⟩

theorem inv_of_dataInv_of_modeInv {s : State} (d : DataInv s) (m : ModeInv s.hbpu) : Inv s :=
  { d with
    idleClean := fun hm => have ⟨hn, hr, _⟩ := (modeInv_idle hm).1 m; ⟨hn, hr⟩
    packAligned := fun hm => have ⟨ha, _⟩ := (modeInv_pack hm).1 m; ha
    unpackClean := fun hm => have ⟨hn, hr, _⟩ := (modeInv_unpack hm).1 m; ⟨hn, hr⟩
    rawWhole := fun hm => have ⟨_, _, _, hw, _⟩ := (modeInv_unpack hm).1 m; hw
    walkAtRoot := fun hm => have ⟨_, _, _, _, hp⟩ := (modeInv_unpack hm).1 m; hp.atRoot
    walkInside := fun hm => have ⟨_, _, _, _, hp⟩ := (modeInv_unpack hm).1 m; hp.inside
    rootInside := fun hm => have ⟨_, _, _, _, hp⟩ := (modeInv_unpack hm).1 m; hp.rootInside
    errorEmpty := fun hm => have ⟨ho, _⟩ := (modeInv_error hm).1 m; ho
    errorFatal := fun hm => have ⟨_, he, _⟩ := (modeInv_error hm).1 m; he
    doneIdle := by
      cases hm : s.hbpu.mode with
      | idle => exact fun h => absurd rfl h
      | pack => exact fun _ => have ⟨_, hd, _⟩ := (modeInv_pack hm).1 m; hd
      | unpack => exact fun _ => have ⟨_, _, hd, _⟩ := (modeInv_unpack hm).1 m; hd
      | error => exact fun _ => have ⟨_, _, hd⟩ := (modeInv_error hm).1 m; hd
    firstUnpack := by
      cases hm : s.hbpu.mode with
      | idle => have ⟨_, _, hf⟩ := (modeInv_idle hm).1 m; simp [hf]
      | pack => have ⟨_, _, hf⟩ := (modeInv_pack hm).1 m; simp [hf]
      | unpack => exact fun _ => .inl rfl
      | error => exact fun _ => .inr rfl }

theorem inv_iff {s : State} : Inv s ↔ DataInv s ∧ ModeInv s.hbpu :=
  ⟨fun h => ⟨h.dataInv, h.modeInv⟩, fun ⟨d, m⟩ => inv_of_dataInv_of_modeInv d m⟩

/-! ## What the shared operations keep of the invariant -/

theorem Inv.withBus {s : State} (h : Inv s) (bus : List HostEvent) : Inv { s with bus := bus } := { h with }

/-- A rejection in ERROR changes nothing, since ERR holds the fatal code; in the other modes no clause speaks of ERR. -/
theorem ModeInv.reject {h : Hbpu} (m : ModeInv h) (c : ErrCode) : ModeInv (h.reject c) := by
  cases hm : h.mode with
  | idle => simpa [modeInv_idle, hm] using m
  | pack => simpa [modeInv_pack, hm] using m
  | unpack => simpa [modeInv_unpack, hm] using m
  | error =>
    have ⟨_, he, _⟩ := (modeInv_error hm).1 m
    rwa [Hbpu.reject_of_err h c (fun e => by simp [e, ErrCode.fatal] at he)]

theorem ModeInv.fail {h : Hbpu} (m : ModeInv h) {c : ErrCode} (hc : c.fatal = true)
    (hm : h.mode = .pack ∨ h.mode = .unpack) : ModeInv (h.fail c) := by
  rw [modeInv_error rfl]
  refine ⟨rfl, hc, ?_⟩
  rcases hm with hm | hm
  · have ⟨_, hd, _⟩ := (modeInv_pack hm).1 m; exact hd
  · have ⟨_, _, hd, _⟩ := (modeInv_unpack hm).1 m; exact hd

theorem ModeInv.pop {h : Hbpu} (m : ModeInv h) {b : Byte} {rest : List Byte} (ho : h.out = b :: rest) :
    ModeInv { h with out := rest } := by
  cases hm : h.mode with
  | idle => simpa [modeInv_idle, hm] using m
  | pack => simpa [modeInv_pack, hm] using m
  | unpack => simpa [modeInv_unpack, hm] using m
  | error => simp [(modeInv_error hm).1 m |>.1] at ho

/-- The padding rounds the payload up to whole bytes (42_pack.md R141). -/
theorem padLength_range (n : Nat) : 1 ≤ padLength n ∧ padLength n ≤ 8 ∧ (padLength n + n) % 8 = 0 := by
  unfold padLength; omega

theorem Hbpu.openPack_accn (h : Hbpu) : h.openPack.accn.toNat = padLength h.arg.toNat % 8 := by
  obtain ⟨h1, h8, -⟩ := padLength_range h.arg.toNat
  unfold Hbpu.openPack; dsimp only; split
  · next hp => simp [hp]
  · simp

theorem Hbpu.openPack_acc_lt (h : Hbpu) : h.openPack.acc.toNat < 2 ^ h.openPack.accn.toNat := by
  obtain ⟨h1, h8, -⟩ := padLength_range h.arg.toNat
  rw [Hbpu.openPack_accn]
  unfold Hbpu.openPack; dsimp only; split
  · next hp => simp [hp]
  · next hp =>
    rw [Nat.mod_eq_of_lt (by omega)]
    exact Nat.one_lt_two_pow (by omega)

theorem Hbpu.openPack_out_length (h : Hbpu) (ho : h.out = []) : h.openPack.out.length ≤ 1 := by
  unfold Hbpu.openPack; dsimp only; split <;> simp [ho]

theorem DataInv.openPack {s : State} (d : DataInv s) (ho : s.hbpu.out = []) :
    DataInv { s with hbpu := s.hbpu.openPack } where
  legal := d.legal
  outFits := by
    have hl := s.hbpu.openPack_out_length ho
    have hd := d.legal
    dsimp only; omega
  treeWf := by simpa using d.treeWf
  treeCanon := by simpa using d.treeCanon
  accBelow := s.hbpu.openPack_acc_lt

/-- PACK_START makes `(ACCN + REMAIN) mod 8 = 0` true (10_state.md R41). -/
theorem ModeInv.openPack {h : Hbpu} (m : ModeInv h) (hm : h.mode = .idle) : ModeInv h.openPack := by
  obtain ⟨-, -, hf⟩ := (modeInv_idle hm).1 m
  obtain ⟨-, -, hp⟩ := padLength_range h.arg.toNat
  rw [modeInv_pack h.openPack_mode, Hbpu.openPack_accn]
  exact ⟨by simpa using hp, by simp, by simpa using hf⟩

theorem DataInv.pushBits {s : State} (d : DataInv s) {bs : List Bool} (ho : s.hbpu.bytesMade bs.length ≤ s.outRoom) :
    DataInv { s with hbpu := s.hbpu.pushBits bs } where
  legal := d.legal
  outFits := by
    have hl := d.outFits
    unfold State.outRoom Hbpu.bytesMade at ho
    rw [Hbpu.pushBits_out_length]
    dsimp only; omega
  treeWf := by simpa using d.treeWf
  treeCanon := by simpa using d.treeCanon
  accBelow := Hbpu.pushBits_acc_lt bs _ d.accBelow

/-- A push raises ACCN modulo 8 by what it takes from REMAIN (10_state.md R41). -/
theorem ModeInv.pushBits {h : Hbpu} (m : ModeInv h) (hm : h.mode = .pack) {bs : List Bool}
    (hr : bs.length ≤ h.remain.toNat) : ModeInv (h.pushBits bs) := by
  obtain ⟨ha, hd, hf⟩ := (modeInv_pack hm).1 m
  rw [modeInv_pack (by simpa using hm), Hbpu.pushBits_accn, Hbpu.pushBits_remain_toNat bs h hr]
  exact ⟨by omega, by simpa using hd, by simpa using hf⟩

/-- With REMAIN = 0 the alignment of R41 leaves ACCN = 0, so PACK_END returns to a clean IDLE. -/
theorem ModeInv.packEnd {h : Hbpu} (m : ModeInv h) (hm : h.mode = .pack) (hr : h.remain = 0) :
    ModeInv { h with mode := .idle, done := true } := by
  obtain ⟨ha, -, hf⟩ := (modeInv_pack hm).1 m
  have hn : h.accn.toNat = 0 := by
    have hl := h.accn.isLt
    have hz : h.remain.toNat = 0 := by simp [hr]
    omega
  exact ⟨BitVec.eq_of_toNat_eq hn, hr, hf⟩

/-- A walk stays where a walk may stand. -/
theorem walkBits_placed (m : Memory) (r : Index) (bs : List Bool) (x y : Walk) (h : walkBits m r bs x = .ok y)
    (p : Placed m r x.node x.inCode) : Placed m r y.node y.inCode := by
  induction bs generalizing x with
  | nil => cases h; exact p
  | cons b bs ih =>
    rw [walkBits] at h
    split at h
    · cases h
    · next z hz =>
      obtain ⟨hin, hroot, hcode⟩ := walkBit_inside hz
      refine ih z h ⟨hroot, hcode, fun _ => ?_⟩
      cases hx : x.inCode with
      | false => rwa [← p.atRoot hx]
      | true => exact p.rootInside hx

/-- The walk of an UNPACK_BYTE ends where a walk may stand, and a RAW session does not move it. -/
theorem Hbpu.unpackBits_placed {h : Hbpu} {bits : List Bool} {x : Walk} (e : h.unpackBits bits = .ok x)
    (p : Placed h.tree h.root h.walk h.inCode) :
    Placed h.tree h.root x.node x.inCode ∧ (h.umode = .raw → x.inCode = h.inCode) := by
  unfold Hbpu.unpackBits at e
  split at e
  · cases e; exact ⟨p, fun _ => rfl⟩
  · next hu => exact ⟨walkBits_placed _ _ _ _ _ e p, fun h => by simp [h] at hu⟩

theorem DataInv.acceptByte {s : State} (d : DataInv s) {x : Walk} (ho : x.out.length ≤ s.outRoom) (dropped : Bool) :
    DataInv { s with hbpu := s.hbpu.acceptByte x dropped } :=
  { d with
    outFits := by
      have hl := d.outFits
      unfold State.outRoom at ho
      rw [Hbpu.acceptByte_out, List.length_append]
      dsimp only; omega }

theorem ModeInv.acceptByte {h : Hbpu} (m : ModeInv h) (hm : h.mode = .unpack) {bits : List Bool} {x : Walk}
    (hx : h.unpackBits bits = .ok x) (dropped : Bool) : ModeInv (h.acceptByte x dropped) := by
  obtain ⟨hn, hr, hd, hw, hp⟩ := (modeInv_unpack hm).1 m
  obtain ⟨hp', hw'⟩ := Hbpu.unpackBits_placed hx hp
  exact (modeInv_unpack (by exact hm)).2 ⟨hn, hr, hd, fun hu => (hw' hu).trans (hw hu), hp'⟩

theorem DataInv.treeWrite {s : State} (d : DataInv s) (i : Index) (w : Word) :
    DataInv { s with hbpu := { s.hbpu with tree := s.hbpu.tree.write i (canon w) } } :=
  { d with
    treeWf := Memory.write_wf _ i _ d.treeWf
    treeCanon := fun e he => by
      rcases Memory.mem_store _ _ _ e he with rfl | he
      · exact canon_canon w
      · exact d.treeCanon e he }

/-! ## Every effect and every step keeps the invariant -/

theorem Effect.keepsInv {s t : State} {j : Instr} (h : Effect s j t) (hs : Inv s) : Inv t := by
  obtain ⟨d, m⟩ := inv_iff.1 hs
  rw [inv_iff]
  cases h with
  | quiet | setPad | setArg | treeRead => exact ⟨{ d with }, m⟩
  | pop b rest w ho =>
    have hl := d.outFits
    rw [ho, List.length_cons] at hl
    exact ⟨{ d with outFits := Nat.le_of_succ_le hl }, m.pop ho⟩
  | softReset | abort => exact ⟨{ d with outFits := Nat.zero_le _, accBelow := Nat.one_pos }, rfl, rfl, rfl⟩
  | treeWrite i hm => exact ⟨d.treeWrite i _, (modeInv_idle (by exact hm)).2 ((modeInv_idle hm).1 m)⟩
  | setRoot i hm => exact ⟨{ d with }, (modeInv_idle (by exact hm)).2 ((modeInv_idle hm).1 m)⟩
  | packStart hm ho => exact ⟨d.openPack ho, m.openPack hm⟩
  | push j bs hm hr h1 h2 ho => exact ⟨d.pushBits ho, m.pushBits hm hr⟩
  | packEnd hm hr => exact ⟨{ d with }, m.packEnd hm hr⟩
  | unpackStart u hm ho =>
    obtain ⟨hn, hr, -⟩ := (modeInv_idle hm).1 m
    exact ⟨{ d with }, hn, hr, rfl, fun _ => rfl, fun _ => rfl, nofun, nofun⟩
  | unpackByte b bits dropped x hm hb hx ho => exact ⟨d.acceptByte ho dropped, m.acceptByte hm hx dropped⟩
  | unpackEnd hm hf =>
    obtain ⟨hn, hr, -⟩ := (modeInv_unpack hm).1 m
    exact ⟨{ d with }, hn, hr, hf⟩
  | reject j c =>
    have hc := m.reject c
    rw [Hbpu.reject_eq] at hc
    exact ⟨{ d with }, hc⟩
  | fail j c hj hc hm => exact ⟨{ d with outFits := Nat.zero_le _ }, m.fail hc hm⟩

/-- The reset values satisfy the invariant, whatever stands beside the HBPU. -/
theorem inv_reset {s : State} (hl : s.cfg.legal) (hs : s.hbpu = Hbpu.reset) : Inv s := by
  rw [inv_iff, hs]
  refine ⟨⟨hl, ?_, ?_, ?_, ?_⟩, rfl, rfl, rfl⟩ <;> rw [hs]
  · exact Nat.zero_le _
  · rfl
  · exact nofun
  · exact Nat.one_pos

theorem exec_keepsInv {i : Instr} {s t : State} (h : exec i s = .next t) (hs : Inv s) : Inv t :=
  (exec_effect i s t h).keepsInv hs

/-- Only the reset input is fetched as a reset. -/
theorem fetch_eq_reset {c : Config} {ev : HostEvent} (h : fetch c ev = .reset) : ev = .reset := by
  cases ev with
  | reset => rfl
  | read size addr => unfold fetch at h; dsimp only at h; split at h <;> cases h
  | write size addr data => unfold fetch at h; dsimp only at h; split at h <;> cases h

theorem step_reset {s : State} {rest : List HostEvent} (hb : s.bus = .reset :: rest) :
    step s = .next (takeReset { s with bus := rest }) := by
  simp only [step, hb, fetch]

/-- What a step can do. -/
theorem step_cases {s t : State} (h : step s = .next t) :
    (s.bus = [] ∧ t = s) ∨
    (∃ rest, s.bus = .reset :: rest ∧ t = takeReset { s with bus := rest }) ∨
    ∃ (ev : HostEvent) (rest : List HostEvent) (c : Code) (i : Instr), s.bus = ev :: rest ∧
      fetch s.cfg ev = .code c ∧ decode c = .ok i ∧ exec i { s with bus := rest } = .next t := by
  unfold step at h
  split at h
  · next hb => cases h; exact .inl ⟨hb, rfl⟩
  · next ev rest hb =>
    split at h
    · next hf =>
      cases h
      exact .inr (.inl ⟨rest, fetch_eq_reset hf ▸ hb, rfl⟩)
    · cases h
    · next c hf =>
      split at h
      · next i hi => exact .inr (.inr ⟨ev, rest, c, i, hb, hf, hi, h⟩)
      · cases h

/-- Settles O59: a step does nothing, takes the reset input, or runs one instruction, whose effect keeps the
invariant. -/
theorem stepKeepsTheInvariant : Obligations.StepKeepsTheInvariant := by
  intro s t hs h
  rcases step_cases h with ⟨-, rfl⟩ | ⟨rest, -, rfl⟩ | ⟨ev, rest, c, i, -, -, -, h⟩
  · exact hs
  · exact inv_reset hs.legal rfl
  · exact exec_keepsInv h (hs.withBus rest)

/-- Settles O58: MODE is IDLE after reset, the data are empty, and `c` is legal by hypothesis. -/
theorem invariantHoldsAtReset : Obligations.InvariantHoldsAtReset := fun _ hl => inv_reset hl rfl

/-! ## WR CMD in a case split -/

/-- For a case split over all instructions: WR CMD runs one of the other rows, or its word is illegal and rejected. -/
theorem plain_cases (i : Instr) :
    (∀ w, plain i ≠ .wrCmd w) ∨ ∀ s, exec i s = rejected s .illegalCmd := by
  cases i with
  | wrCmd w =>
    rcases plain_wrCmd w with ⟨hc, -⟩ | ⟨-, hr⟩
    · exact .inl fun v e => by rw [e] at hc; cases hc
    · exact .inr hr
  | _ => exact .inl nofun

/-! ## MODE (10_state.md R24) -/

/-- An effect that changes MODE goes along an arrow of 10_state.md R24. -/
theorem Effect.mode_arrow {s t : State} {j : Instr} (h : Effect s j t) (hne : t.hbpu.mode ≠ s.hbpu.mode) :
    (j = .packStart ∧ s.hbpu.mode = .idle ∧ t.hbpu.mode = .pack) ∨
    (j = .packEnd ∧ s.hbpu.mode = .pack ∧ t.hbpu.mode = .idle) ∨
    ((∃ m, j = .unpackStart m) ∧ s.hbpu.mode = .idle ∧ t.hbpu.mode = .unpack) ∨
    (j = .unpackEnd ∧ s.hbpu.mode = .unpack ∧ t.hbpu.mode = .idle) ∨
    (t.hbpu.err.fatal = true ∧ (s.hbpu.mode = .pack ∨ s.hbpu.mode = .unpack) ∧ t.hbpu.mode = .error) ∨
    ((j = .abort ∨ j = .softReset) ∧ t.hbpu.mode = .idle) := by
  cases h with
  | packStart hm => exact .inl ⟨rfl, hm, Hbpu.openPack_mode _⟩
  | packEnd hm => exact .inr (.inl ⟨rfl, hm, rfl⟩)
  | unpackStart m hm => exact .inr (.inr (.inl ⟨⟨m, rfl⟩, hm, rfl⟩))
  | unpackEnd hm => exact .inr (.inr (.inr (.inl ⟨rfl, hm, rfl⟩)))
  | fail j c hj hc hm => exact .inr (.inr (.inr (.inr (.inl ⟨hc, hm, rfl⟩))))
  | abort => exact .inr (.inr (.inr (.inr (.inr ⟨.inl rfl, rfl⟩))))
  | softReset => exact .inr (.inr (.inr (.inr (.inr ⟨.inr rfl, rfl⟩))))
  | push j bs => exact absurd (Hbpu.pushBits_mode bs s.hbpu) hne
  | quiet | pop | setPad | setArg | treeWrite | treeRead | setRoot | unpackByte | reject => exact absurd rfl hne

/-- Settles O51: every next state is an effect's, and an effect changes MODE along an arrow only; the reset input sets
IDLE. -/
theorem modeChangesOnlyAlongTheArrows : Obligations.ModeChangesOnlyAlongTheArrows := by
  refine ⟨fun i s t h hne => (exec_effect i s t h).mode_arrow hne, fun s t rest hb h => ?_⟩
  rw [step_reset hb] at h
  cases h; rfl

/-! ## ARG (10_state.md R23): who writes it -/

theorem Effect.arg_eq {s t : State} {j : Instr} (h : Effect s j t) (hw : ∀ d, j ≠ .wrArg d)
    (hr : ∀ idx, j ≠ .treeRead idx) (hs : j ≠ .softReset) : t.hbpu.arg = s.hbpu.arg := by
  cases h with
  | setArg d => exact absurd rfl (hw d)
  | treeRead i => exact absurd rfl (hr i)
  | softReset => exact absurd rfl hs
  | packStart => exact Hbpu.openPack_arg _
  | push j bs => exact Hbpu.pushBits_arg bs _
  | quiet | pop | setPad | abort | treeWrite | setRoot | packEnd | unpackStart | unpackByte | unpackEnd | reject
  | fail => rfl

/-! ## ARG: who reads it, as two runs that differ in ARG -/

/-- `s` with the word `a` in ARG. -/
def State.withArg (a : Word) (s : State) : State := { s with hbpu := { s.hbpu with arg := a } }

@[simp] theorem State.withArg_first (a : Word) (s : State) : (s.withArg a).hbpu.first = s.hbpu.first := rfl
@[simp] theorem State.withArg_padmode (a : Word) (s : State) : (s.withArg a).hbpu.padmode = s.hbpu.padmode := rfl
@[simp] theorem State.withArg_out (a : Word) (s : State) : (s.withArg a).hbpu.out = s.hbpu.out := rfl
@[simp] theorem State.withArg_tree (a : Word) (s : State) : (s.withArg a).hbpu.tree = s.hbpu.tree := rfl
@[simp] theorem State.withArg_unpackBits (a : Word) (s : State) (bits : List Bool) :
    (s.withArg a).hbpu.unpackBits bits = s.hbpu.unpackBits bits := rfl

/-- Where the first answer is a next state, so is the second, and the two differ at most in ARG. -/
def AgreeButArg (r r' : Result) : Prop :=
  ∀ t, r = .next t → ∃ t', r' = .next t' ∧ t'.withArg t.hbpu.arg = t

theorem AgreeButArg.refl (r : Result) : AgreeButArg r r := fun t h => ⟨t, h, rfl⟩

theorem AgreeButArg.of_withArg {s s' : State} (h : s' = s.withArg s'.hbpu.arg) : AgreeButArg (.next s) (.next s') := by
  rintro _ ⟨⟩
  exact ⟨s', rfl, by rw [h]; rfl⟩

theorem AgreeButArg.next (s : State) (a : Word) : AgreeButArg (.next s) (.next (s.withArg a)) :=
  .of_withArg rfl

theorem AgreeButArg.rejected (s : State) (a : Word) (c : ErrCode) :
    AgreeButArg (rejected s c) (rejected (s.withArg a) c) := by
  rw [rejected_eq, rejected_eq]
  exact .next _ a

theorem AgreeButArg.failed (s : State) (a : Word) (c : ErrCode) :
    AgreeButArg (failed s c) (failed (s.withArg a) c) := .next _ a

theorem AgreeButArg.ite {p : Prop} [Decidable p] {r₁ r₁' r₂ r₂' : Result} (h₁ : AgreeButArg r₁ r₁')
    (h₂ : AgreeButArg r₂ r₂') : AgreeButArg (if p then r₁ else r₂) (if p then r₁' else r₂') := by
  split
  · exact h₁
  · exact h₂

theorem AgreeButArg.requireMode (i : Instr) (s : State) (a : Word) {r r' : Result} (h : AgreeButArg r r') :
    AgreeButArg (requireMode i s r) (requireMode i (s.withArg a) r') := h.ite (.rejected s a _)

theorem Hbpu.pushBit_withArg (h : Hbpu) (a : Word) (b : Bool) :
    { h with arg := a }.pushBit b = { h.pushBit b with arg := a } := by
  unfold Hbpu.pushBit; dsimp only; split <;> rfl

theorem execPackSym_agreeButArg (y : Byte) (s : State) (a : Word) :
    AgreeButArg (execPackSym y s) (execPackSym y (s.withArg a)) := by
  refine .requireMode _ s a ?_
  cases symbolBit y with
  | none => exact .failed s a _
  | some b =>
    refine .ite (.failed s a _) (.ite (.rejected s a _) (.of_withArg ?_))
    simp [State.withArg, Hbpu.pushBit_withArg]

theorem execUnpackByte_agreeButArg (b : Byte) (s : State) (a : Word) :
    AgreeButArg (execUnpackByte b s) (execUnpackByte b (s.withArg a)) := by
  refine .requireMode _ s a ?_
  simp only [State.withArg_first, State.withArg_padmode, State.withArg_unpackBits]
  cases byteBits s.hbpu.first s.hbpu.padmode b with
  | none => exact .failed s a _
  | some p =>
    obtain ⟨bits, dropped⟩ := p
    dsimp only
    cases s.hbpu.unpackBits bits with
    | error e =>
      cases e with
      | atLeaf => exact .failed s a _
      | unwritten i => exact .refl _
    | ok x => exact .ite (.rejected s a _) (.next _ a)

theorem execRdOut_agreeButArg (s : State) (a : Word) : AgreeButArg (execRdOut s) (execRdOut (s.withArg a)) := by
  simp only [execRdOut, State.withArg_out]
  cases s.hbpu.out with
  | nil => exact .next _ a
  | cons b rest => exact .next _ a

/-- What an instruction that does not read ARG answers does not depend on ARG. -/
theorem exec_agreeButArg (j : Instr) (s : State) (a : Word) (hc : ∀ w, j ≠ .wrCmd w) (h1 : j ≠ .packStart)
    (h2 : ∀ n, j ≠ .packBits n) (h3 : ∀ idx, j ≠ .treeWrite idx) (h4 : j ≠ .rdArg) :
    AgreeButArg (exec j s) (exec j (s.withArg a)) := by
  cases j with
  | wrCmd w => exact absurd rfl (hc w)
  | packStart => exact absurd rfl h1
  | packBits n => exact absurd rfl (h2 n)
  | treeWrite idx => exact absurd rfl (h3 idx)
  | rdArg => exact absurd rfl h4
  | packSym y => exact execPackSym_agreeButArg y s a
  | packEnd => exact .requireMode _ s a (.ite (.failed s a _) (.next _ a))
  | unpackStart m => exact .requireMode _ s a (.ite (.rejected s a _) (.next _ a))
  | unpackByte b => exact execUnpackByte_agreeButArg b s a
  | unpackEnd => exact .requireMode _ s a (.ite (.failed s a _) (.next _ a))
  | setRoot idx => exact .requireMode _ s a (.next _ a)
  | treeRead idx =>
    simp only [exec_treeRead, State.withArg_tree]
    cases s.hbpu.tree.read idx with
    | none => exact .refl _
    | some w => exact .refl _
  | rdOut => exact execRdOut_agreeButArg s a
  | softReset | wrArg => exact .refl _
  | nop | abort | rdId | rdCtrl | rdStatus | rdCmd | rdRoot | rdRemain | rdWalk | rdPacc | rdUnmapped | wrCtrl | wrId
  | wrStatus | wrOut | wrRoot | wrRemain | wrWalk | wrPacc | wrUnmapped => exact .next _ a

/-- Settles O55: of the effects only those of WR ARG, TREE_READ and SOFT_RESET touch ARG, and any other instruction than
the four readers of ARG gives two answers that differ in ARG at most. -/
theorem argIsReadAndWrittenOnlyByItsUsers : Obligations.ArgIsReadAndWrittenOnlyByItsUsers := by
  refine ⟨fun i s t h hw hr hs => (exec_effect i s t h).arg_eq hw hr hs, fun i s t a h h1 h2 h3 h4 => ?_⟩
  suffices AgreeButArg (exec i s) (exec i (s.withArg a)) from this t h
  rcases plain_cases i with hc | hill
  · rw [← exec_plain i, ← exec_plain i]
    exact exec_agreeButArg (plain i) s a hc h1 h2 h3 h4
  · rw [hill, hill]
    exact .rejected s a _

/-! ## What stops the machine (10_state.md R36) -/

/-- The answer is a next state, or the fault of an entry of the tree RAM `m` that was never written. -/
def StopsOnlyUnwritten (m : Memory) (r : Result) : Prop :=
  (∃ t, r = .next t) ∨ ∃ idx, r = .fault (.treeUnwritten idx) ∧ m.read idx = none

theorem StopsOnlyUnwritten.next (m : Memory) (t : State) : StopsOnlyUnwritten m (.next t) := .inl ⟨t, rfl⟩

theorem StopsOnlyUnwritten.ite {m : Memory} {p : Prop} [Decidable p] {r₁ r₂ : Result} (h₁ : StopsOnlyUnwritten m r₁)
    (h₂ : StopsOnlyUnwritten m r₂) : StopsOnlyUnwritten m (if p then r₁ else r₂) := by
  split
  · exact h₁
  · exact h₂

theorem StopsOnlyUnwritten.requireMode {m : Memory} (i : Instr) (s : State) {r : Result} (h : StopsOnlyUnwritten m r) :
    StopsOnlyUnwritten m (requireMode i s r) := h.ite (.next m _)

theorem Hbpu.unpackBits_unwritten {h : Hbpu} {bits : List Bool} {i : Index}
    (e : h.unpackBits bits = .error (.unwritten i)) : h.tree.read i = none := by
  unfold Hbpu.unpackBits at e
  split at e
  · cases e
  · exact walkBits_unwritten _ _ _ _ _ e

theorem execUnpackByte_stops (b : Byte) (s : State) : StopsOnlyUnwritten s.hbpu.tree (execUnpackByte b s) := by
  refine .requireMode _ s ?_
  cases byteBits s.hbpu.first s.hbpu.padmode b with
  | none => exact .next _ _
  | some p =>
    obtain ⟨bits, dropped⟩ := p
    dsimp only
    cases hx : s.hbpu.unpackBits bits with
    | error e =>
      cases e with
      | atLeaf => exact .next _ _
      | unwritten i => exact .inr ⟨i, rfl, Hbpu.unpackBits_unwritten hx⟩
    | ok x => exact .ite (.next _ _) (.next _ _)

theorem execPackSym_stops (y : Byte) (s : State) : StopsOnlyUnwritten s.hbpu.tree (execPackSym y s) := by
  refine .requireMode _ s ?_
  cases symbolBit y with
  | none => exact .next _ _
  | some b => exact .ite (.next _ _) (.ite (.next _ _) (.next _ _))

/-- Only TREE_READ and UNPACK_BYTE's walk can fault, each at an unwritten entry. -/
theorem exec_stops (j : Instr) (s : State) (hc : ∀ w, j ≠ .wrCmd w) : StopsOnlyUnwritten s.hbpu.tree (exec j s) := by
  cases j with
  | wrCmd w => exact absurd rfl (hc w)
  | packStart => exact .requireMode _ s (.ite (.next _ _) (.next _ _))
  | packBits n => exact .requireMode _ s (.ite (.next _ _) (.ite (.next _ _) (.ite (.next _ _) (.next _ _))))
  | packSym y => exact execPackSym_stops y s
  | packEnd => exact .requireMode _ s (.ite (.next _ _) (.next _ _))
  | unpackStart m => exact .requireMode _ s (.ite (.next _ _) (.next _ _))
  | unpackByte b => exact execUnpackByte_stops b s
  | unpackEnd => exact .requireMode _ s (.ite (.next _ _) (.next _ _))
  | treeWrite idx => exact .requireMode _ s (.next _ _)
  | setRoot idx => exact .requireMode _ s (.next _ _)
  | treeRead idx =>
    rw [exec_treeRead]
    cases hw : s.hbpu.tree.read idx with
    | none => exact .inr ⟨idx, rfl, hw⟩
    | some w => exact .next _ _
  | rdOut =>
    rw [exec_rdOut]
    cases s.hbpu.out with
    | nil => exact .next _ _
    | cons b rest => exact .next _ _
  | nop | softReset | abort | rdId | rdCtrl | rdStatus | rdArg | rdCmd | rdRoot | rdRemain | rdWalk | rdPacc
  | rdUnmapped | wrCtrl | wrArg | wrId | wrStatus | wrOut | wrRoot | wrRemain | wrWalk | wrPacc | wrUnmapped => exact .next _ _

/-- Settles O56: every answer is a next state or the fault of an unwritten entry, and a full tree has none. -/
theorem onlyUnwrittenEntriesStop : Obligations.OnlyUnwrittenEntriesStop := by
  intro i s
  have key : StopsOnlyUnwritten s.hbpu.tree (exec i s) := by
    rcases plain_cases i with hc | hill
    · exact exec_plain i s ▸ exec_stops (plain i) s hc
    · exact hill s ▸ .next _ _
  rcases key with ⟨t, ht⟩ | ⟨idx, hf, hu⟩
  · rw [ht]
    exact ⟨nofun, nofun, fun _ => ⟨t, rfl⟩⟩
  · rw [hf]
    refine ⟨nofun, ?_, fun full => absurd hu (full idx)⟩
    rintro _ ⟨⟩
    exact ⟨idx, rfl, hu⟩

/-! ## The words the registers read as (10_state.md R38, R39), field by field

The words are disjunctions of shifted fields; each bit of a field comes from one disjunct, the others being 0 there. -/

theorem paccWord_acc (h : Hbpu) : (paccWord h).extractLsb' 0 7 = h.acc := by
  ext i hi
  interval_cases i <;> simp [paccWord]

theorem paccWord_reserved (h : Hbpu) : (paccWord h).getLsbD 7 = false := by simp [paccWord]

theorem paccWord_accn (h : Hbpu) : (paccWord h).extractLsb' 8 3 = h.accn := by
  ext i hi
  interval_cases i <;> simp [paccWord]

theorem paccWord_high (h : Hbpu) : (paccWord h).extractLsb' 11 21 = 0 := by
  ext i hi
  interval_cases i <;> simp [paccWord]

theorem statusWord_mode (h : Hbpu) : (statusWord h).extractLsb' 0 2 = h.mode.code := by
  ext i hi
  interval_cases i <;> simp [statusWord, flagAt]

theorem statusWord_umode (h : Hbpu) : (statusWord h).getLsbD 2 = h.umode.bit := by simp [statusWord, flagAt]
theorem statusWord_first (h : Hbpu) : (statusWord h).getLsbD 3 = h.first := by simp [statusWord, flagAt]
theorem statusWord_done (h : Hbpu) : (statusWord h).getLsbD 4 = h.done := by simp [statusWord, flagAt]
theorem statusWord_trunc (h : Hbpu) : (statusWord h).getLsbD 5 = h.trunc := by simp [statusWord, flagAt]
theorem statusWord_malpad (h : Hbpu) : (statusWord h).getLsbD 6 = h.malpad := by simp [statusWord, flagAt]
theorem statusWord_inCode (h : Hbpu) : (statusWord h).getLsbD 7 = h.inCode := by simp [statusWord, flagAt]

theorem statusWord_err (h : Hbpu) : (statusWord h).extractLsb' 8 4 = h.err.code := by
  ext i hi
  interval_cases i <;> simp [statusWord, flagAt]

theorem statusWord_reserved (h : Hbpu) : (statusWord h).extractLsb' 12 4 = 0 := by
  ext i hi
  interval_cases i <;> simp [statusWord, flagAt]

theorem statusWord_outCount (h : Hbpu) : (statusWord h).extractLsb' 16 8 = BitVec.ofNat 8 h.out.length := by
  ext i hi
  interval_cases i <;> simp [statusWord, flagAt]

theorem statusWord_high (h : Hbpu) : (statusWord h).extractLsb' 24 8 = 0 := by
  ext i hi
  interval_cases i <;> simp [statusWord, flagAt]

/-- Every field of STATUS is 0 after reset. -/
theorem statusWord_reset : statusWord Hbpu.reset = 0 := by decide

theorem umodeBit_eq (m : UMode) : m.bit = (m == .decode) := by cases m <;> rfl

/-- Settles O12: each read replies with its word, whose fields are the lemmas above. -/
theorem readOnlyViews : Obligations.ReadOnlyViews := by
  refine ⟨rfl, rfl, rfl, rfl, fun s => ⟨⟨_, rfl, ?_⟩, ⟨_, rfl, ?_⟩, ⟨_, rfl, ?_⟩, rfl⟩⟩
  · exact ⟨paccWord_acc _, paccWord_reserved _, paccWord_accn _, paccWord_high _⟩
  · exact BitVec.toNat_setWidth_of_le (by decide)
  · exact BitVec.toNat_setWidth_of_le (by decide)

/-- Settles O13: RD STATUS replies with `statusWord`, whose fields are the lemmas above. -/
theorem statusWordFields : Obligations.StatusWordFields := by
  refine ⟨rfl, fun s => ⟨statusWord s.hbpu, rfl, ?_, ?_, statusWord_first _, statusWord_done _, statusWord_trunc _,
    statusWord_malpad _, statusWord_inCode _, ?_, statusWord_reserved _, fun hl => ?_, statusWord_high _⟩, fun c => ?_⟩
  · rw [statusWord_mode]
    cases s.hbpu.mode <;> rfl
  · rw [statusWord_umode, umodeBit_eq]
  · rw [statusWord_err]
    cases s.hbpu.err <;> rfl
  · rw [statusWord_outCount, BitVec.toNat_ofNat, Nat.mod_eq_of_lt (by omega)]
  · show reply (State.resetWith c) (statusWord Hbpu.reset) = _
    rw [statusWord_reset, reply_eq]
    rfl

end Sys2Proof.Machine

namespace Sys2Proof.Machine

/-! ## From a host access to its outcome (20_memory.md R50, R52, R65) -/

theorem busOffset_subWord (c : Config) {size : AccessSize} (addr : Nat) (h : size ≠ .word) :
    busOffset c size addr = .error .subWord := by
  cases size with
  | byte => rfl
  | half => rfl
  | word => exact absurd rfl h

theorem busOffset_outside {c : Config} {addr : Nat} (h : addr < c.hbpuBase ∨ c.hbpuBase + 0x1000 ≤ addr) :
    busOffset c .word addr = .error .outsideBlock := if_neg (by omega)

theorem busOffset_inside {c : Config} {addr : Nat} (hl : c.hbpuBase ≤ addr) (hu : addr < c.hbpuBase + 0x1000) :
    busOffset c .word addr = .ok (BitVec.ofNat 12 (addr - c.hbpuBase)) := if_pos ⟨hl, hu⟩

theorem busOffset_base_add (c : Config) (o : Offset) : busOffset c .word (c.hbpuBase + o.toNat) = .ok o := by
  have ho := o.isLt
  rw [busOffset_inside (by omega) (by omega), Nat.add_sub_cancel_left, BitVec.ofNat_toNat, BitVec.setWidth_eq]

theorem fetch_read_ok {c : Config} {size : AccessSize} {addr : Nat} {o : Offset} (h : busOffset c size addr = .ok o) :
    fetch c (.read size addr) = .code (.rd o) := by simp only [fetch, h]

theorem fetch_write_ok {c : Config} {size : AccessSize} {addr : Nat} {o : Offset} (d : Word)
    (h : busOffset c size addr = .ok o) : fetch c (.write size addr d) = .code (.wr o d) := by simp only [fetch, h]

theorem fetch_access_refused {c : Config} {ev : HostEvent} {size : AccessSize} {addr : Nat} {d : Word} {r : Refusal}
    (hev : ev = .read size addr ∨ ev = .write size addr d) (h : busOffset c size addr = .error r) :
    fetch c ev = .refused r := by
  rcases hev with rfl | rfl <;> simp only [fetch, h]

/-- An access inside the block is fetched as the read or write at its offset. -/
theorem fetch_access_inside {c : Config} {ev : HostEvent} {addr : Nat} {d : Word}
    (hev : ev = .read .word addr ∨ ev = .write .word addr d) (hl : c.hbpuBase ≤ addr)
    (hu : addr < c.hbpuBase + 0x1000) :
    ∃ (o : Offset) (code : Code), o.toNat = addr - c.hbpuBase ∧ (code = .rd o ∨ code = .wr o d) ∧
      fetch c ev = .code code := by
  have ho := busOffset_inside hl hu
  have hn : (BitVec.ofNat 12 (addr - c.hbpuBase)).toNat = addr - c.hbpuBase := by
    rw [BitVec.toNat_ofNat, Nat.mod_eq_of_lt (by omega)]
  rcases hev with rfl | rfl
  · exact ⟨_, _, hn, .inl rfl, fetch_read_ok ho⟩
  · exact ⟨_, _, hn, .inr rfl, fetch_write_ok d ho⟩

/-- Only the offset decides whether an access decodes (20_memory.md R52): a misaligned one names no register. -/
theorem decode_access_misaligned {c : Code} {o : Offset} {d : Word} (hc : c = .rd o ∨ c = .wr o d)
    (h : o.toNat % 4 ≠ 0) : decode c = .error .misaligned := by
  rcases hc with rfl | rfl
  · show decodeRead o = _
    unfold decodeRead
    split
    case h_11 => exact if_neg h
    all_goals omega
  · show decodeWrite o d = _
    unfold decodeWrite
    split
    case h_11 => exact if_neg h
    all_goals omega

theorem decode_access_aligned {c : Code} {o : Offset} {d : Word} (hc : c = .rd o ∨ c = .wr o d)
    (h : o.toNat % 4 = 0) : ∃ i, decode c = .ok i := by
  rcases hc with rfl | rfl
  · show ∃ i, decodeRead o = .ok i
    unfold decodeRead
    split
    case h_11 => exact ⟨_, if_pos h⟩
    all_goals exact ⟨_, rfl⟩
  · show ∃ i, decodeWrite o d = .ok i
    unfold decodeWrite
    split
    case h_11 => exact ⟨_, if_pos h⟩
    all_goals exact ⟨_, rfl⟩

theorem step_refused {s : State} {ev : HostEvent} {rest : List HostEvent} {r : Refusal} (hb : s.bus = ev :: rest)
    (hf : fetch s.cfg ev = .refused r) : step s = .refused r := by
  simp only [step, hb, hf]

theorem step_undecodable {s : State} {ev : HostEvent} {rest : List HostEvent} {c : Code} {e : DecodeError}
    (hb : s.bus = ev :: rest) (hf : fetch s.cfg ev = .code c) (hd : decode c = .error e) :
    step s = .refused (.undecodable e) := by
  simp only [step, hb, hf, hd]

theorem step_exec {s : State} {ev : HostEvent} {rest : List HostEvent} {c : Code} {i : Instr}
    (hb : s.bus = ev :: rest) (hf : fetch s.cfg ev = .code c) (hd : decode c = .ok i) :
    step s = exec i { s with bus := rest } := by
  simp only [step, hb, hf, hd]

/-- Settles O3: the bus side refuses what is no 32-bit access in the block, the decoder refuses the misaligned offsets,
and no instruction is refused (O56). -/
theorem onlyAlignedWordAccessesHaveAStep : Obligations.OnlyAlignedWordAccessesHaveAStep := by
  intro s rest ev size addr d hev hb
  refine ⟨fun hs => ?_, fun hs hout => ?_, fun hs hl hu hmis => ?_, fun hs hl hu hal => ?_⟩
  · exact step_refused hb (fetch_access_refused hev (busOffset_subWord s.cfg addr hs))
  · subst hs
    exact step_refused hb (fetch_access_refused hev (busOffset_outside hout))
  · subst hs
    obtain ⟨o, code, ho, hc, hf⟩ := fetch_access_inside hev hl hu
    exact step_undecodable hb hf (decode_access_misaligned hc (ho ▸ hmis))
  · subst hs
    obtain ⟨o, code, ho, hc, hf⟩ := fetch_access_inside hev hl hu
    obtain ⟨i, hi⟩ := decode_access_aligned hc (ho ▸ hal)
    obtain ⟨hexec, -⟩ := onlyUnwrittenEntriesStop i { s with bus := rest }
    exact step_exec hb hf hi ▸ hexec

/-- Settles O1: an access at HBPU_BASE + o is fetched as the code at `o`, which `step` decodes and runs. -/
theorem stepRunsTheDecodedAccess : Obligations.StepRunsTheDecodedAccess := fun s _ o d _ =>
  ⟨fun hb hd => step_exec hb (fetch_read_ok (busOffset_base_add s.cfg o)) hd,
    fun hb hd => step_exec hb (fetch_write_ok d (busOffset_base_add s.cfg o)) hd⟩

/-! ## Register accesses and the HBPU (20_memory.md R63, R64) -/

/-- A byte under the VALID bit of OUT. -/
theorem validByte_toNat (b : Byte) : ((0x00000100 : Word) ||| b.setWidth 32).toNat = 0x100 + b.toNat := by
  revert b; decide

/-- Settles O14: the two branches of RD OUT (`exec_rdOut`). -/
theorem readOfOutPopsTheHead : Obligations.ReadOfOutPopsTheHead := by
  refine fun s => ⟨rfl, fun ho => ?_, fun b rest ho => ⟨0x00000100 ||| b.setWidth 32, validByte_toNat b, ?_⟩⟩
  · simp only [exec_rdOut, ho, reply_eq]
  · simp only [exec_rdOut, ho, reply_eq]

/-- The answer is `s` with at most one word more among the host's replies. -/
def OnlyReplies (s : State) (r : Result) : Prop :=
  ∃ rs : List Word, rs.length ≤ 1 ∧ r = .next { s with replies := s.replies ++ rs }

theorem onlyReplies_reply (s : State) (w : Word) : OnlyReplies s (reply s w) := ⟨[w], Nat.le_refl 1, rfl⟩

theorem onlyReplies_ignoredWrite (s : State) : OnlyReplies s (ignoredWrite s) :=
  ⟨[], Nat.zero_le 1, by rw [List.append_nil]; rfl⟩

/-- Settles O17: the other reads only reply, and the other writes are ignored. -/
theorem otherAccessesKeepTheDevice : Obligations.OtherAccessesKeepTheDevice := by
  intro i s hcmd hout hctrl harg hwr
  cases i with
  | rdId | rdCtrl | rdStatus | rdArg | rdCmd | rdRoot | rdRemain | rdWalk | rdPacc | rdUnmapped =>
    exact onlyReplies_reply s _
  | wrId | wrStatus | wrOut | wrRoot | wrRemain | wrWalk | wrPacc | wrUnmapped => exact onlyReplies_ignoredWrite s
  | rdOut => exact absurd rfl hout
  | wrCtrl d => exact absurd rfl (hctrl d)
  | wrArg d => exact absurd rfl (harg d)
  | wrCmd w => exact absurd rfl (hwr w)
  | nop | softReset | abort | packStart | packBits | packSym | packEnd | unpackStart | unpackByte | unpackEnd
  | treeWrite | treeRead | setRoot => cases hcmd

/-! ## The packed file's bytes and bits (20_memory.md R56, R58, R59) -/

/-- The converse of `byteOfBits_bits8`. -/
theorem bits8_byteOfBits {g : List Bool} (h : g.length = 8) : bits8 (byteOfBits g) = g := by
  match g, h with
  | [b7, b6, b5, b4, b3, b2, b1, b0], _ => revert b7 b6 b5 b4 b3 b2 b1 b0; decide

/-- A bit string of a whole number of bytes is spelled by a file. -/
theorem exists_bytes_spelling (n : Nat) (bs : List Bool) (h : bs.length = 8 * n) :
    ∃ f : List Byte, f.length = n ∧ f.flatMap bits8 = bs := by
  induction n generalizing bs with
  | zero => exact ⟨[], rfl, (List.length_eq_zero_iff.1 h).symm⟩
  | succ n ih =>
    obtain ⟨f, hlen, hbits⟩ := ih (bs.drop 8) (by rw [List.length_drop]; omega)
    have hbyte : bits8 (byteOfBits (bs.take 8)) = bs.take 8 := bits8_byteOfBits (by rw [List.length_take]; omega)
    exact ⟨byteOfBits (bs.take 8) :: f, by rw [List.length_cons, hlen],
      by rw [List.flatMap_cons, hbits, hbyte, List.take_append_drop]⟩

theorem paddedBits_length (p : List Bool) : (paddedBits p).length = 8 * (p.length / 8 + 1) := by
  simp only [paddedBits, List.length_append, List.length_replicate, List.length_cons]
  omega

/-- The padding's '1' stands among the first eight bits. -/
theorem paddedBits_one (p : List Bool) : ∃ k < 8, (paddedBits p)[k]? = some true := by
  refine ⟨8 - p.length % 8 - 1, by omega, ?_⟩
  unfold paddedBits
  rw [List.getElem?_append_right (by rw [List.length_replicate]), List.length_replicate, Nat.sub_self]
  rfl

theorem packedFile_spec (p : List Bool) :
    (packedFile p).length = p.length / 8 + 1 ∧ (packedFile p).flatMap bits8 = paddedBits p := by
  obtain ⟨f, hlen, hbits⟩ := exists_bytes_spelling _ _ (paddedBits_length p)
  have hf : packedFile p = f := by rw [packedFile, ← hbits, cutBytes_flatMap_bits8]
  exact hf ▸ ⟨hlen, hbits⟩

/-- A first byte 0x00 would spell eight bits 0 where the padding's '1' stands. -/
theorem packedFile_head_ne_zero (p : List Bool) : (packedFile p).head? ≠ some 0 := by
  intro h0
  obtain ⟨rest, hrest⟩ := List.head?_eq_some_iff.1 h0
  obtain ⟨k, hk, hone⟩ := paddedBits_one p
  obtain ⟨-, hbits⟩ := packedFile_spec p
  have hzero : bits8 0 = List.replicate 8 false := by decide
  rw [← hbits, hrest, List.flatMap_cons, List.getElem?_append_left (by rwa [bits8_length]), hzero,
    List.getElem?_replicate_of_lt hk] at hone
  cases hone

/-- Settles O36: the padded string fills whole bytes, and cutting it gives the file that spells it. -/
theorem packedFileShape : Obligations.PackedFileShape := fun p =>
  have ⟨hlen, hbits⟩ := packedFile_spec p
  ⟨hlen, packedFile_head_ne_zero p, hbits⟩

end Sys2Proof.Machine

namespace Sys2Proof.Machine

/-! ## The parts of a command word (30_encoding.md R80, R81)

OP in bits [31:28], an operand of `k` bits at the bottom, and reserved bits between. -/

/-- The command word of an opcode and an operand: its reserved bits are 0. -/
def cmdWord (op : BitVec 4) {k : Nat} (x : BitVec k) : Word := op.setWidth 32 <<< 28 ||| x.setWidth 32

/-- The reserved mask of a row with an operand of `k` bits (R82): bits [27:k]. -/
def reservedMask (k : Nat) : Word := (BitVec.allOnes (28 - k)).setWidth 32 <<< k

theorem getLsbD_opcode (w : Word) {j : Nat} (hj : j < 4) : (opcode w).getLsbD j = w.getLsbD (28 + j) := by
  simp [opcode, hj]

theorem getLsbD_cmdWord_of_lt (op : BitVec 4) {k : Nat} (x : BitVec k) {j : Nat} (hj : j < 28) :
    (cmdWord op x).getLsbD j = x.getLsbD j := by
  simp [cmdWord, hj, Nat.lt_trans hj]

theorem getLsbD_cmdWord_opcode (op : BitVec 4) {k : Nat} (hk : k ≤ 28) (x : BitVec k) {j : Nat} (hj : j < 4) :
    (cmdWord op x).getLsbD (28 + j) = op.getLsbD j := by
  have hx : x.getLsbD (28 + j) = false := BitVec.getLsbD_of_ge x _ (by omega)
  simp [cmdWord, hx, hj, Nat.add_lt_add_left hj 28]

theorem getLsbD_reservedMask (k : Nat) {j : Nat} (hj : j < 32) :
    (reservedMask k).getLsbD j = (decide (k ≤ j) && decide (j < 28)) := by
  rw [Bool.eq_iff_iff]
  simp [reservedMask, hj]
  omega

theorem and_reservedMask_eq_zero_iff (w : Word) (k : Nat) :
    w &&& reservedMask k = 0 ↔ ∀ j, k ≤ j → j < 28 → w.getLsbD j = false := by
  constructor
  · intro h j hkj hj
    have hb : (w &&& reservedMask k).getLsbD j = false := by rw [h]; exact BitVec.getLsbD_zero
    simpa [getLsbD_reservedMask k (Nat.lt_trans hj (by decide)), hkj, hj] using hb
  · intro h
    refine BitVec.eq_of_getLsbD_eq fun j hj => ?_
    have hz : (0 : Word).getLsbD j = false := BitVec.getLsbD_zero
    rw [BitVec.getLsbD_and, getLsbD_reservedMask k hj, hz]
    suffices w.getLsbD j = true → k ≤ j → 28 ≤ j by simpa
    exact fun hw hkj => Nat.le_of_not_lt fun hl => by simp [h j hkj hl] at hw

/-- A word is the command word of its own opcode and operand exactly when no reserved bit is 1, and no other parts make
it. Both directions of the round trip rest on this. -/
theorem eq_cmdWord_iff {w : Word} {op : BitVec 4} {k : Nat} {x : BitVec k} (hk : k ≤ 28) :
    w = cmdWord op x ↔ opcode w = op ∧ w &&& reservedMask k = 0 ∧ w.setWidth k = x := by
  rw [and_reservedMask_eq_zero_iff]
  constructor
  · rintro rfl
    refine ⟨?_, fun j hkj hj => ?_, ?_⟩
    · refine BitVec.eq_of_getLsbD_eq fun j hj => ?_
      rw [getLsbD_opcode _ hj, getLsbD_cmdWord_opcode op hk x hj]
    · rw [getLsbD_cmdWord_of_lt op x hj, BitVec.getLsbD_of_ge x j hkj]
    · refine BitVec.eq_of_getLsbD_eq fun j hj => ?_
      rw [BitVec.getLsbD_setWidth, getLsbD_cmdWord_of_lt op x (by omega), decide_eq_true hj, Bool.true_and]
  · rintro ⟨rfl, hm, rfl⟩
    refine BitVec.eq_of_getLsbD_eq fun j hj => ?_
    rcases Nat.lt_or_ge j 28 with hl | hh
    · rw [getLsbD_cmdWord_of_lt _ _ hl, BitVec.getLsbD_setWidth]
      rcases Nat.lt_or_ge j k with hjk | hkj
      · rw [decide_eq_true hjk, Bool.true_and]
      · rw [hm j hkj hl, Bool.and_false]
    · obtain ⟨i, rfl⟩ := Nat.exists_eq_add_of_le hh
      rw [getLsbD_cmdWord_opcode _ hk _ (by omega), getLsbD_opcode w (by omega)]

/-! ## The command table (30_encoding.md R82), row by row -/

/-- The rows of R82: the opcode, the width of the operand, and the instruction with an operand. -/
inductive CommandRow : BitVec 4 → (k : Nat) → (BitVec k → Instr) → Prop
  | nop : CommandRow 0x0 0 fun _ => .nop
  | softReset : CommandRow 0x1 0 fun _ => .softReset
  | abort : CommandRow 0x2 0 fun _ => .abort
  | packStart : CommandRow 0x3 0 fun _ => .packStart
  | packBits : CommandRow 0x4 6 .packBits
  | packSym : CommandRow 0x5 8 .packSym
  | packEnd : CommandRow 0x6 0 fun _ => .packEnd
  | unpackStart : CommandRow 0x7 1 fun m => .unpackStart (UMode.ofBit (m.getLsbD 0))
  | unpackByte : CommandRow 0x8 8 .unpackByte
  | unpackEnd : CommandRow 0x9 0 fun _ => .unpackEnd
  | treeWrite : CommandRow 0xA 8 .treeWrite
  | treeRead : CommandRow 0xB 8 .treeRead
  | setRoot : CommandRow 0xC 8 .setRoot

namespace CommandRow

variable {op : BitVec 4} {k : Nat} {f : BitVec k → Instr}

theorem width_le (h : CommandRow op k f) : k ≤ 28 := by cases h <;> decide

theorem encode_eq (h : CommandRow op k f) (x : BitVec k) : encode (f x) = .cmd (cmdWord op x) := by
  cases h with
  | nop | softReset | abort | packStart | packEnd | unpackEnd => rw [BitVec.eq_nil x]; rfl
  | packBits | packSym | unpackByte | treeWrite | treeRead | setRoot => rfl
  | unpackStart => revert x; decide

theorem decodeCmd_eq (h : CommandRow op k f) {w : Word} (hop : opcode w = op) :
    decodeCmd w = checkReserved w (reservedMask k) (f (w.setWidth k)) := by
  unfold decodeCmd
  rw [hop]
  cases h with
  | unpackStart =>
    dsimp only
    rw [BitVec.getLsbD_setWidth]; rfl
  | _ => rfl

theorem mem_reservedMasks (h : CommandRow op k f) : (op.toNat, reservedMask k) ∈ reservedMasks := by
  cases h <;> decide

end CommandRow

theorem exists_commandRow_of_isCommand {i : Instr} (h : isCommand i = true) :
    ∃ op k f x, CommandRow op k f ∧ i = f x := by
  cases i
  case nop => exact ⟨_, _, _, 0, .nop, rfl⟩
  case softReset => exact ⟨_, _, _, 0, .softReset, rfl⟩
  case abort => exact ⟨_, _, _, 0, .abort, rfl⟩
  case packStart => exact ⟨_, _, _, 0, .packStart, rfl⟩
  case packBits n => exact ⟨_, _, _, n, .packBits, rfl⟩
  case packSym y => exact ⟨_, _, _, y, .packSym, rfl⟩
  case packEnd => exact ⟨_, _, _, 0, .packEnd, rfl⟩
  case unpackStart m => exact ⟨_, _, _, BitVec.ofBool m.bit, .unpackStart, by cases m <;> rfl⟩
  case unpackByte b => exact ⟨_, _, _, b, .unpackByte, rfl⟩
  case unpackEnd => exact ⟨_, _, _, 0, .unpackEnd, rfl⟩
  case treeWrite idx => exact ⟨_, _, _, idx, .treeWrite, rfl⟩
  case treeRead idx => exact ⟨_, _, _, idx, .treeRead, rfl⟩
  case setRoot idx => exact ⟨_, _, _, idx, .setRoot, rfl⟩
  all_goals cases h

theorem exists_commandRow_of_mem {r : Nat × Word} (h : r ∈ reservedMasks) :
    ∃ op k f, CommandRow op k f ∧ r = (op.toNat, reservedMask k) := by
  simp only [reservedMasks, List.mem_cons, List.not_mem_nil, or_false] at h
  rcases h with rfl | rfl | rfl | rfl | rfl | rfl | rfl | rfl | rfl | rfl | rfl | rfl | rfl
  · exact ⟨_, _, _, .nop, rfl⟩
  · exact ⟨_, _, _, .softReset, rfl⟩
  · exact ⟨_, _, _, .abort, rfl⟩
  · exact ⟨_, _, _, .packStart, rfl⟩
  · exact ⟨_, _, _, .packBits, rfl⟩
  · exact ⟨_, _, _, .packSym, rfl⟩
  · exact ⟨_, _, _, .packEnd, rfl⟩
  · exact ⟨_, _, _, .unpackStart, rfl⟩
  · exact ⟨_, _, _, .unpackByte, rfl⟩
  · exact ⟨_, _, _, .unpackEnd, rfl⟩
  · exact ⟨_, _, _, .treeWrite, rfl⟩
  · exact ⟨_, _, _, .treeRead, rfl⟩
  · exact ⟨_, _, _, .setRoot, rfl⟩

/-- Only the opcodes of the table decode (R84). -/
theorem exists_commandRow_of_decodeCmd_ok {w : Word} {i : Instr} (h : decodeCmd w = .ok i) :
    ∃ k f, CommandRow (opcode w) k f := by
  have hop : ∃ r ∈ reservedMasks, (opcode w).toNat = r.1 := by
    unfold decodeCmd at h
    split at h
    case h_14 => cases h
    all_goals simp [reservedMasks, *]
  obtain ⟨r, hr, hop⟩ := hop
  obtain ⟨op, k, f, hrow, rfl⟩ := exists_commandRow_of_mem hr
  exact ⟨k, f, BitVec.eq_of_toNat_eq hop ▸ hrow⟩

theorem checkReserved_eq_ok_iff {w mask : Word} {i j : Instr} :
    checkReserved w mask i = .ok j ↔ w &&& mask = 0 ∧ i = j := by
  unfold checkReserved
  split
  · next hm => exact ⟨fun h => ⟨hm, Except.ok.inj h⟩, fun ⟨_, h⟩ => congrArg _ h⟩
  · next hm => exact ⟨nofun, fun ⟨h, _⟩ => absurd h hm⟩

/-- A command word decodes exactly when it is a row's opcode over an operand, and then to the row's instruction. -/
theorem decodeCmd_eq_ok_iff {w : Word} {i : Instr} :
    decodeCmd w = .ok i ↔ ∃ op k f x, CommandRow op k f ∧ w = cmdWord op x ∧ i = f x := by
  constructor
  · intro h
    obtain ⟨k, f, hr⟩ := exists_commandRow_of_decodeCmd_ok h
    rw [hr.decodeCmd_eq rfl, checkReserved_eq_ok_iff] at h
    obtain ⟨hm, hi⟩ := h
    exact ⟨_, k, f, w.setWidth k, hr, (eq_cmdWord_iff hr.width_le).2 ⟨rfl, hm, rfl⟩, hi.symm⟩
  · rintro ⟨op, k, f, x, hr, hw, rfl⟩
    obtain ⟨hop, hm, hx⟩ := (eq_cmdWord_iff hr.width_le).1 hw
    rw [hr.decodeCmd_eq hop, checkReserved_eq_ok_iff, hx]
    exact ⟨hm, rfl⟩

theorem decode_encode_of_isCommand {i : Instr} (h : isCommand i = true) : decode (encode i) = .ok i := by
  obtain ⟨op, k, f, x, hr, rfl⟩ := exists_commandRow_of_isCommand h
  rw [hr.encode_eq]
  exact decodeCmd_eq_ok_iff.2 ⟨op, k, f, x, hr, rfl, rfl⟩

theorem encode_of_decodeCmd_ok {w : Word} {i : Instr} (h : decodeCmd w = .ok i) : encode i = .cmd w := by
  obtain ⟨op, k, f, x, hr, rfl, rfl⟩ := decodeCmd_eq_ok_iff.1 h
  exact hr.encode_eq x

theorem wellFormed_of_isCommand {i : Instr} (h : isCommand i = true) : i.wellFormed = true := by
  cases i with
  | rdUnmapped | wrUnmapped => cases h
  | _ => rfl

/-! ## Register accesses (30_encoding.md R88) -/

theorem unmapped_iff {o : Offset} : Offset.unmapped o = true ↔ 0x028 ≤ o.toNat ∧ o.toNat % 4 = 0 := by
  simp [Offset.unmapped]

theorem decodeRead_of_unmapped {o : Offset} (h : Offset.unmapped o = true) : decodeRead o = .ok (.rdUnmapped o) := by
  obtain ⟨hlo, hal⟩ := unmapped_iff.1 h
  unfold decodeRead
  split
  case h_11 => exact if_pos hal
  all_goals omega

theorem decodeWrite_of_unmapped {o : Offset} (h : Offset.unmapped o = true) (d : Word) :
    decodeWrite o d = .ok (.wrUnmapped o d) := by
  obtain ⟨hlo, hal⟩ := unmapped_iff.1 h
  unfold decodeWrite
  split
  case h_11 => exact if_pos hal
  all_goals omega

/-- The ten registers take every aligned offset below 0x028 (20_memory.md R51), so an aligned offset
that none of them takes is unmapped. -/
theorem encode_of_decodeRead_ok {o : Offset} {i : Instr} (h : decodeRead o = .ok i) :
    i.wellFormed = true ∧ encode i = .rd o := by
  unfold decodeRead at h
  split at h
  case h_11 =>
    unfold decodeUnmappedRead at h
    split at h
    · next hal =>
      have hu : Offset.unmapped o = true := unmapped_iff.2 ⟨by grind, hal⟩
      cases h
      exact ⟨hu, rfl⟩
    · cases h
  all_goals
    next ho =>
      cases h
      exact ⟨rfl, congrArg Code.rd (BitVec.eq_of_toNat_eq ho.symm)⟩

theorem encode_of_decodeWrite_ok {o : Offset} {d : Word} {i : Instr} (h : decodeWrite o d = .ok i) :
    i.wellFormed = true ∧ encode i = .wr o d := by
  unfold decodeWrite at h
  split at h
  case h_11 =>
    unfold decodeUnmappedWrite at h
    split at h
    · next hal =>
      have hu : Offset.unmapped o = true := unmapped_iff.2 ⟨by grind, hal⟩
      cases h
      exact ⟨hu, rfl⟩
    · cases h
  all_goals
    next ho =>
      cases h
      exact ⟨rfl, congrArg (Code.wr · d) (BitVec.eq_of_toNat_eq ho.symm)⟩

/-- Settles O6: a command is a row of R82 with an operand, and its word gives both back; an access is found at the
offset it is encoded with. -/
theorem decodeOfEncodeIsTheInstruction : Obligations.DecodeOfEncodeIsTheInstruction := by
  intro i hwf
  cases hc : isCommand i with
  | true => exact decode_encode_of_isCommand hc
  | false =>
    cases i with
    | rdUnmapped o => exact decodeRead_of_unmapped hwf
    | wrUnmapped o d => exact decodeWrite_of_unmapped hwf d
    | rdId | rdCtrl | rdStatus | rdArg | rdCmd | rdOut | rdRoot | rdRemain | rdWalk | rdPacc | wrCtrl | wrArg | wrCmd
    | wrId | wrStatus | wrOut | wrRoot | wrRemain | wrWalk | wrPacc => rfl
    | nop | softReset | abort | packStart | packBits | packSym | packEnd | unpackStart | unpackByte | unpackEnd
    | treeWrite | treeRead | setRoot => cases hc

/-- Settles O7: a word that decodes is its own opcode over its own operand, and an access is decoded by its whole
offset. -/
theorem encodeOfDecodeIsTheCode : Obligations.EncodeOfDecodeIsTheCode := by
  intro c i h
  cases c with
  | cmd w => exact ⟨wellFormed_of_isCommand (decodeCmd_isCommand w i h), encode_of_decodeCmd_ok h⟩
  | rd o => exact encode_of_decodeRead_ok h
  | wr o d => exact encode_of_decodeWrite_ok h

theorem toNat_opcode (w : Word) : (opcode w).toNat = (w >>> 28).toNat := by
  have hw := w.isLt
  rw [opcode, BitVec.extractLsb'_toNat, BitVec.toNat_ushiftRight, Nat.shiftRight_eq_div_pow]
  omega

/-- Legality by R82's masks is what the decoder checks (R83, R84). -/
theorem legalWord_iff {w : Word} : LegalWord w ↔ ∃ i, decodeCmd w = .ok i := by
  constructor
  · rintro ⟨r, hr, hop, hm⟩
    obtain ⟨op, k, f, hrow, rfl⟩ := exists_commandRow_of_mem hr
    rw [← toNat_opcode] at hop
    exact ⟨_, (hrow.decodeCmd_eq (BitVec.eq_of_toNat_eq hop)).trans (if_pos hm)⟩
  · rintro ⟨i, h⟩
    obtain ⟨op, k, f, x, hrow, hw, -⟩ := decodeCmd_eq_ok_iff.1 h
    obtain ⟨rfl, hm, -⟩ := (eq_cmdWord_iff hrow.width_le).1 hw
    exact ⟨_, hrow.mem_reservedMasks, (toNat_opcode w).symm, hm⟩

/-- Settles O8: a word decodes exactly in the rows of R82 (`legalWord_iff`), and WR CMD rejects a word that does not. -/
theorem illegalCommandWordsAreRejected : Obligations.IllegalCommandWordsAreRejected := by
  refine ⟨rfl, fun w s => ⟨legalWord_iff.symm, fun h => ?_⟩⟩
  cases hd : decodeCmd w with
  | ok i => exact absurd (legalWord_iff.2 ⟨i, hd⟩) h
  | error e => exact (execWrCmd_error w e s hd).trans (rejected_eq s _)

/-! ## Mode legality (30_encoding.md R87) -/

/-- The mode check is the table of R87. -/
theorem legalIn_iff {i : Instr} {m : Mode} : legalIn i m = true ↔ m ∈ acceptingModes i := by
  have every : m ∈ [Mode.idle, .pack, .unpack, .error] := by cases m <;> decide
  cases i with
  | packStart | unpackStart | treeWrite | setRoot | packBits | packSym | packEnd | unpackByte | unpackEnd =>
    exact beq_iff_eq.trans List.mem_singleton.symm
  | _ => exact iff_of_true rfl every

/-- No next state has ERR = BAD_MODE. -/
def NoBadMode (r : Result) : Prop := ∀ t, r = .next t → t.hbpu.err ≠ .badMode

theorem NoBadMode.commit (s : State) {h : Hbpu} (he : h.err ≠ .badMode) : NoBadMode (commit s h) := by
  rintro _ ⟨⟩
  exact he

theorem NoBadMode.rejected {s : State} {c : ErrCode} (he : s.hbpu.err = .none) (hc : c ≠ .badMode) :
    NoBadMode (rejected s c) := .commit s (by rw [Hbpu.reject_err, if_pos he]; exact hc)

theorem NoBadMode.failed (s : State) {c : ErrCode} (hc : c ≠ .badMode) : NoBadMode (failed s c) := .commit s hc

theorem NoBadMode.ite {p : Prop} [Decidable p] {r₁ r₂ : Result} (h₁ : NoBadMode r₁) (h₂ : NoBadMode r₂) :
    NoBadMode (if p then r₁ else r₂) := by
  split
  · exact h₁
  · exact h₂

theorem NoBadMode.fault (f : Fault) : NoBadMode (.fault f) := by rintro _ ⟨⟩

theorem NoBadMode.requireMode {i : Instr} {s : State} (hl : legalIn i s.hbpu.mode = true) {r : Result}
    (h : NoBadMode r) : NoBadMode (requireMode i s r) := by rwa [requireMode_legal i s r hl]

theorem execPackSym_noBadMode (y : Byte) {s : State} (hl : legalIn (.packSym y) s.hbpu.mode = true)
    (he : s.hbpu.err = .none) : NoBadMode (execPackSym y s) := by
  refine .requireMode hl ?_
  cases symbolBit y with
  | none => exact .failed s (by decide)
  | some b => exact .ite (.failed s (by decide)) (.ite (.rejected he (by decide)) (.commit s (by simp [he])))

theorem execUnpackByte_noBadMode (b : Byte) {s : State} (hl : legalIn (.unpackByte b) s.hbpu.mode = true)
    (he : s.hbpu.err = .none) : NoBadMode (execUnpackByte b s) := by
  refine .requireMode hl ?_
  cases byteBits s.hbpu.first s.hbpu.padmode b with
  | none => exact .failed s (by decide)
  | some p =>
    obtain ⟨bits, dropped⟩ := p
    dsimp only
    cases s.hbpu.unpackBits bits with
    | error e =>
      cases e with
      | atLeaf => exact .failed s (by decide)
      | unwritten i => exact .fault _
    | ok x => exact .ite (.rejected he (by decide)) (.commit s (by simp [he]))

/-- A command that passes the mode check raises only other codes. -/
theorem exec_noBadMode {i : Instr} {s : State} (hc : isCommand i = true) (hl : legalIn i s.hbpu.mode = true)
    (he : s.hbpu.err = .none) : NoBadMode (exec i s) := by
  have keep : s.hbpu.err ≠ .badMode := by rw [he]; decide
  cases i
  case nop => exact .commit s keep
  case softReset | abort => exact .commit s (by simp)
  case packStart => exact .requireMode hl (.ite (.rejected he (by decide)) (.commit s (by simpa using keep)))
  case packBits n =>
    exact .requireMode hl (.ite (.rejected he (by decide)) (.ite (.failed s (by decide))
      (.ite (.rejected he (by decide)) (.commit s (by simpa using keep)))))
  case packSym y => exact execPackSym_noBadMode y hl he
  case packEnd => exact .requireMode hl (.ite (.failed s (by decide)) (.commit s keep))
  case unpackStart m => exact .requireMode hl (.ite (.rejected he (by decide)) (.commit s keep))
  case unpackByte b => exact execUnpackByte_noBadMode b hl he
  case unpackEnd => exact .requireMode hl (.ite (.failed s (by decide)) (.commit s keep))
  case treeWrite idx => exact .requireMode hl (.commit s keep)
  case treeRead idx =>
    rw [exec_treeRead]
    cases s.hbpu.tree.read idx with
    | none => exact .fault _
    | some w => exact .commit s keep
  case setRoot idx => exact .requireMode hl (.commit s keep)
  all_goals cases hc

/-- Settles O25: the mode check is the table of R87, and behind it no command raises BAD_MODE. -/
theorem modeLegality : Obligations.ModeLegality := by
  refine ⟨rfl, fun i s hc => ⟨fun hm => ?_, fun hm => exec_noBadMode hc (legalIn_iff.2 hm)⟩⟩
  have hl : legalIn i s.hbpu.mode = false := Bool.eq_false_iff.2 (mt legalIn_iff.1 hm)
  exact (exec_badMode i s hl).trans (rejected_eq s _)

/-! ## A command written to CMD, and sample words -/

/-- Settles O2: the access is fetched as a write to CMD, whose meaning runs the command its word decodes to. -/
theorem stepRunsTheCommandWrittenToCmd : Obligations.StepRunsTheCommandWrittenToCmd := by
  intro s rest w i hb hd
  have hf : fetch s.cfg (.write .word (s.cfg.hbpuBase + 0x010) w) = .code (.wr 0x010 w) :=
    fetch_write_ok w (busOffset_base_add s.cfg 0x010)
  exact (step_exec hb hf rfl).trans (execWrCmd_ok w i _ hd)

/-- Settles O9: each word's opcode, reserved bits and operand are computed (R81, R82, R88). -/
theorem sampleWordsDecode : Obligations.SampleWordsDecode :=
  ⟨rfl, rfl, rfl, rfl, rfl, rfl, rfl, rfl, rfl, rfl⟩

end Sys2Proof.Machine

namespace Sys2Proof.Machine

/-! ## PADMODE and UNPACK_BYTE (40_host_access.md R103, 43_unpack_decode.md R172, 70_reset_and_hazards.md R249) -/

/-- `s` with `p` in PADMODE. -/
def State.withPad (p : PadMode) (s : State) : State := { s with hbpu := { s.hbpu with padmode := p } }

@[simp] theorem State.withPad_first (p : PadMode) (s : State) : (s.withPad p).hbpu.first = s.hbpu.first := rfl
@[simp] theorem State.withPad_padmode (p : PadMode) (s : State) : (s.withPad p).hbpu.padmode = p := rfl
@[simp] theorem State.withPad_unpackBits (p : PadMode) (s : State) (bits : List Bool) :
    (s.withPad p).hbpu.unpackBits bits = s.hbpu.unpackBits bits := rfl

theorem exec_wrCtrl (d : Word) (s : State) : exec (.wrCtrl d) s = .next (s.withPad (.ofBit (d.getLsbD 0))) := rfl

/-- A byte after the first is its eight bits, whatever PADMODE is (43_unpack_decode.md R173). -/
theorem byteBits_later (p : PadMode) (b : Byte) : byteBits false p b = some (bits8 b, false) := rfl

/-- A byte without payload makes no output and moves no walk, in either output mode. -/
theorem Hbpu.unpackBits_nil (h : Hbpu) : h.unpackBits [] = .ok { node := h.walk, inCode := h.inCode, out := [] } := by
  unfold Hbpu.unpackBits
  cases h.umode <;> rfl

theorem unpackByte_zero_strict {s : State} (hm : s.hbpu.mode = .unpack) (hf : s.hbpu.first = true)
    (hp : s.hbpu.padmode = .strict) : FailsWith (.unpackByte 0) s .malformedPadding := by
  have hb : byteBits s.hbpu.first s.hbpu.padmode 0 = none := by rw [hf, hp]; rfl
  simp only [FailsWith, exec_unpackByte 0 s hm, hb, failed_eq]

theorem exec_unpackByte_zero_compat {s : State} (hm : s.hbpu.mode = .unpack) (hf : s.hbpu.first = true)
    (hp : s.hbpu.padmode = .compat) :
    exec (.unpackByte 0) s = .next { s with hbpu := { s.hbpu with first := false, malpad := true } } := by
  have hb : byteBits s.hbpu.first s.hbpu.padmode 0 = some ([], true) := by rw [hf, hp]; rfl
  simp only [exec_unpackByte 0 s hm, hb, Hbpu.unpackBits_nil, List.length_nil, Nat.not_lt_zero, if_false, commit_eq,
    Hbpu.acceptByte, List.append_nil, Bool.or_true]

theorem rejected_withPad {s u : State} {c : ErrCode} (p : PadMode) (h : rejected s c = .next u) :
    rejected (s.withPad p) c = .next (u.withPad p) := by
  rw [rejected_eq] at h ⊢
  cases h; rfl

/-- After the first byte PADMODE is only carried along (70_reset_and_hazards.md R249). -/
theorem exec_unpackByte_withPad {s u : State} {b : Byte} (p : PadMode) (hf : s.hbpu.first = false)
    (h : exec (.unpackByte b) s = .next u) : exec (.unpackByte b) (s.withPad p) = .next (u.withPad p) := by
  by_cases hm : s.hbpu.mode = .unpack
  · rw [exec_unpackByte b s hm] at h
    rw [exec_unpackByte b (s.withPad p) hm]
    simp only [State.withPad_first, State.withPad_unpackBits, hf, byteBits_later] at h ⊢
    cases hx : s.hbpu.unpackBits (bits8 b) with
    | error e =>
      cases e with
      | atLeaf => simp only [hx] at h ⊢; cases h; rfl
      | unwritten i => simp only [hx] at h; cases h
    | ok x =>
      simp only [hx] at h ⊢
      split at h
      · next hfull => exact (if_pos hfull).trans (rejected_withPad p h)
      · next hroom => cases h; exact if_neg hroom
  · have hl : legalIn (.unpackByte b) s.hbpu.mode = false := by simpa [legalIn] using hm
    rw [exec_badMode _ s hl] at h
    rw [exec_badMode _ (s.withPad p) hl]
    exact rejected_withPad p h

/-- Settles O44: a first byte 0x00 is read under the PADMODE that WR CTRL left, and a later byte is not read under it at
all (`exec_unpackByte_withPad`). -/
theorem padmodeIsSampledAtTheFirstByte : Obligations.PadmodeIsSampledAtTheFirstByte := by
  refine fun s d => ⟨rfl, rfl, fun hm hf t h => ?_, fun b pad u hf h => exec_unpackByte_withPad pad hf h⟩
  rw [exec_wrCtrl] at h
  cases h
  refine ⟨fun hd => unpackByte_zero_strict hm hf ?_, fun hd => exec_unpackByte_zero_compat hm hf ?_⟩
  · rw [State.withPad_padmode, hd]; rfl
  · rw [State.withPad_padmode, hd]; rfl

/-! ## The host's side of the state (logs 1, 2, 3) -/

/-- The host's side of `t` after instruction `j` in `s`: the parameters and the queue stay, and the replies have one word
more exactly when `j` is a read. -/
def KeepsHostSide (s : State) (j : Instr) (t : State) : Prop :=
  t.cfg = s.cfg ∧ t.bus = s.bus ∧ ∃ rs : List Word, t.replies = s.replies ++ rs ∧
    (((∃ o, encode j = .rd o) ∧ rs.length = 1) ∨ ((∀ o, encode j ≠ .rd o) ∧ rs = []))

/-- An effect on the HBPU alone, of an instruction that is no read. -/
theorem KeepsHostSide.of_hbpu {s : State} {h : Hbpu} {j : Instr} (hj : ∀ o, encode j ≠ .rd o) :
    KeepsHostSide s j { s with hbpu := h } :=
  ⟨rfl, rfl, [], (List.append_nil _).symm, .inr ⟨hj, rfl⟩⟩

theorem Effect.keepsHostSide {s t : State} {j : Instr} (h : Effect s j t) : KeepsHostSide s j t := by
  cases h with
  | quiet j rs hj ho hr => exact ⟨rfl, rfl, rs, rfl, hr⟩
  | pop b rest w ho => exact ⟨rfl, rfl, [w], rfl, .inl ⟨⟨_, rfl⟩, rfl⟩⟩
  | push j bs hm hr h1 h2 ho hj =>
    rcases hj with ⟨n, rfl, -⟩ | ⟨y, b, rfl, -⟩
    · exact .of_hbpu nofun
    · exact .of_hbpu nofun
  | reject j c hj => exact .of_hbpu hj
  | fail j c hj => exact .of_hbpu hj
  | setPad | setArg | softReset | abort | treeWrite | treeRead | setRoot | packStart | packEnd | unpackStart | unpackByte
  | unpackEnd => exact .of_hbpu nofun

/-- A write to CMD is no read, and neither is the command it runs. -/
theorem encode_plain_eq_rd_iff {i : Instr} {o : Offset} : encode (plain i) = .rd o ↔ encode i = .rd o := by
  cases i with
  | wrCmd w =>
    refine iff_of_false (fun h => ?_) nofun
    rcases plain_wrCmd w with ⟨-, hd⟩ | ⟨hw, -⟩
    · rw [encode_of_decodeCmd_ok hd] at h; cases h
    · rw [hw] at h; cases h
  | _ => exact Iff.rfl

/-- Settles O57: every effect keeps the host's side, and WR CMD counts as the command it runs. -/
theorem instructionsKeepTheHostSide : Obligations.InstructionsKeepTheHostSide := by
  intro i s t h
  obtain ⟨hcfg, hbus, rs, hrs, hr⟩ := (exec_effect i s t h).keepsHostSide
  simp only [ne_eq, encode_plain_eq_rd_iff] at hr
  refine ⟨hcfg, hbus, rs, hrs, fun ⟨o, ho⟩ => ?_, fun hno => ?_⟩
  · rcases hr with ⟨-, hone⟩ | ⟨hno, -⟩
    · exact hone
    · exact absurd ho (hno o)
  · rcases hr with ⟨⟨o, ho⟩, -⟩ | ⟨-, hnil⟩
    · exact absurd ho (hno o)
    · exact hnil

/-! ## Descriptors of register accesses (30_encoding.md R88) -/

theorem ofDescriptor_read (o : Offset) (d : Word) : Code.ofDescriptor (o.setWidth 13) d = .rd o := by
  simp [Code.ofDescriptor]

theorem ofDescriptor_write (o : Offset) (d : Word) : Code.ofDescriptor (0x1000 ||| o.setWidth 13) d = .wr o d := by
  simp [Code.ofDescriptor]

theorem decode_unmapped_read {o : Offset} (hlo : 0x028 ≤ o.toNat) (hal : o.toNat % 4 = 0) (d : Word) :
    decode (Code.ofDescriptor (o.setWidth 13) d) = .ok (.rdUnmapped o) := by
  rw [ofDescriptor_read]
  exact decodeRead_of_unmapped (unmapped_iff.2 ⟨hlo, hal⟩)

theorem decode_unmapped_write {o : Offset} (hlo : 0x028 ≤ o.toNat) (hal : o.toNat % 4 = 0) (d : Word) :
    decode (Code.ofDescriptor (0x1000 ||| o.setWidth 13) d) = .ok (.wrUnmapped o d) := by
  rw [ofDescriptor_write]
  exact decodeWrite_of_unmapped (unmapped_iff.2 ⟨hlo, hal⟩) d

/-! ## Reads and writes of the registers -/

/-- Settles O10: each read is `reply` of its constant, and the unmapped offsets decode by the default row. -/
theorem constantReads : Obligations.ConstantReads := fun s =>
  ⟨⟨rfl, reply_eq s idWord⟩, ⟨rfl, reply_eq s 0⟩, fun _ hlo hal => ⟨decode_unmapped_read hlo hal 0, reply_eq s 0⟩⟩

/-- PADMODE zero-extended is 1 or 0 (R102). -/
theorem ctrlWord_eq (h : Hbpu) : ctrlWord h = if h.padmode = .compat then 1 else 0 := by
  unfold ctrlWord
  cases h.padmode <;> rfl

/-- Settles O11: the two reads reply with `ctrlWord` and with ARG. -/
theorem readsOfCtrlAndArg : Obligations.ReadsOfCtrlAndArg := by
  refine fun s => ⟨⟨rfl, ?_⟩, rfl, reply_eq s s.hbpu.arg⟩
  rw [← ctrlWord_eq]
  exact reply_eq s (ctrlWord s.hbpu)

/-- Settles O15: offset 0x00C with W = 1 is WR ARG, whose meaning commits ARG alone. -/
theorem writeOfArgStoresTheWord : Obligations.WriteOfArgStoresTheWord := fun s d =>
  ⟨rfl, commit_eq s { s.hbpu with arg := d }⟩

/-- Settles O16: the meaning of each of these writes is `ignoredWrite`, and the unmapped offsets decode by the default
row. -/
theorem readOnlyWritesAreIgnored : Obligations.ReadOnlyWritesAreIgnored := fun _ d =>
  ⟨⟨rfl, rfl⟩, ⟨rfl, rfl⟩, ⟨rfl, rfl⟩, ⟨rfl, rfl⟩, ⟨rfl, rfl⟩, ⟨rfl, rfl⟩, ⟨rfl, rfl⟩,
    fun _ hlo hal => ⟨decode_unmapped_write hlo hal d, rfl⟩⟩

/-- Settles O18: WR CMD runs the decoded command (`execWrCmd_ok`) or rejects (`execWrCmd_error`); the three words decode to
NOP, SOFT_RESET and ABORT, and ClearSession gives the reset values of all that those two commands do not keep. -/
theorem writeToCmdExecutesTheCommand : Obligations.WriteToCmdExecutesTheCommand := by
  refine fun s w => ⟨rfl, fun i hd => execWrCmd_ok w i s hd, fun e hd => ?_, ?_, ?_, ?_⟩
  · exact (execWrCmd_error w e s hd).trans (rejected_eq s _)
  · exact execWrCmd_ok 0x00000000 .nop s rfl
  · exact execWrCmd_ok 0x10000000 .softReset s rfl
  · exact execWrCmd_ok 0x20000000 .abort s rfl

end Sys2Proof.Machine

namespace Sys2Proof.Machine

/-! ## The tree RAM as it is read and written by index (20_memory.md R61, R62) -/

@[simp] theorem Memory.read_write_same (m : Memory) (i : Index) (v : Word) : (m.write i v).read i = some v :=
  Memory.find_store_same m i.toNat v

@[simp] theorem Memory.read_write_of_ne (m : Memory) {i j : Index} (v : Word) (h : j ≠ i) :
    (m.write i v).read j = m.read j :=
  Memory.find_store_other m i.toNat j.toNat v (mt BitVec.eq_of_toNat_eq h)

/-- Every word a TREE_READ or a walk reads is canonical (R61). -/
theorem Inv.canon_of_read {s : State} (hs : Inv s) {i : Index} {w : Word} (h : s.hbpu.tree.read i = some w) :
    canon w = w :=
  hs.treeCanon (i.toNat, w) (Memory.mem_of_find s.hbpu.tree i.toNat w h)

/-! ## Rejections, and words with OP = 0 -/

theorem rejectsWith_badMode {i : Instr} {s : State} (h : legalIn i s.hbpu.mode = false) : RejectsWith i s .badMode :=
  (exec_badMode i s h).trans (rejected_eq s .badMode)

theorem rejectsWith_illegalCmd {w : Word} {e : DecodeError} (h : decodeCmd w = .error e) (s : State) :
    RejectsWith (.wrCmd w) s .illegalCmd :=
  (execWrCmd_error w e s h).trans (rejected_eq s .illegalCmd)

theorem opcode_eq_zero_iff {w : Word} : opcode w = 0 ↔ w >>> 28 = 0 := by
  rw [← BitVec.toNat_inj, toNat_opcode, ← BitVec.toNat_inj]; rfl

/-- In the row of NOP every bit of [27:0] is reserved, so its only word is 0 (30_encoding.md R82). -/
theorem decodeCmd_error_of_opcode_zero {w : Word} (hop : opcode w = 0) (hw : w ≠ 0) :
    ∃ e, decodeCmd w = .error e := by
  cases hd : decodeCmd w with
  | error e => exact ⟨e, rfl⟩
  | ok i =>
    rw [CommandRow.nop.decodeCmd_eq hop, checkReserved_eq_ok_iff] at hd
    obtain ⟨hm, -⟩ := hd
    have hz : w = cmdWord 0x0 (0 : BitVec 0) := (eq_cmdWord_iff (Nat.zero_le 28)).2 ⟨hop, hm, BitVec.eq_nil _⟩
    exact absurd hz hw

/-! ## Control and tree commands (41_control_tree.md R121 to R127) -/

theorem exec_softReset (s : State) :
    exec .softReset s = commit s { s.hbpu with padmode := .strict, arg := 0, root := 0 }.clearSession := rfl

theorem exec_abort (s : State) : exec .abort s = commit s s.hbpu.clearSession := rfl

/-- Settles O22: TREE_WRITE commits the tree RAM with `canon ARG` written at IDX, which a read of IDX gives back and a
read of another index does not see. -/
theorem treeWriteStoresTheCanonicalWord : Obligations.TreeWriteStoresTheCanonicalWord := by
  refine fun s idx => ⟨decode_encode_of_isCommand (i := .treeWrite idx) rfl, fun hm => ?_, fun hm => ?_⟩
  · exact rejectsWith_badMode (beq_eq_false_iff_ne.2 hm)
  · exact ⟨s.hbpu.tree.write idx (canon s.hbpu.arg), exec_treeWrite idx s hm, Memory.read_write_same _ _ _,
      fun j hj => Memory.read_write_of_ne _ _ hj⟩

/-- Settles O19: a word with OP = 0 that is not 0 does not decode (`decodeCmd_error_of_opcode_zero`). -/
theorem nopHasNoEffect : Obligations.NopHasNoEffect := by
  refine fun s => ⟨rfl, rfl, fun w hop hw => ?_⟩
  obtain ⟨e, he⟩ := decodeCmd_error_of_opcode_zero (opcode_eq_zero_iff.2 hop) hw
  exact rejectsWith_illegalCmd he s

/-- Settles O20: PADMODE, ARG and ROOT go to 0, WALK follows ROOT, and ClearSession resets the rest but TREE. -/
theorem softResetKeepsOnlyTheTree : Obligations.SoftResetKeepsOnlyTheTree := fun s =>
  ⟨rfl, (exec_softReset s).trans (commit_eq s _)⟩

/-- Settles O21: ABORT is ClearSession (R121). -/
theorem abortEndsTheSession : Obligations.AbortEndsTheSession := fun s =>
  ⟨rfl, (exec_abort s).trans (commit_eq s _)⟩

/-- Settles O23: TREE_READ is a case of what entry IDX holds (`exec_treeRead`), and the invariant has only canonical
words there. -/
theorem treeReadMovesTheEntryToArg : Obligations.TreeReadMovesTheEntryToArg := by
  refine fun s idx => ⟨decode_encode_of_isCommand (i := .treeRead idx) rfl,
    fun w hw => ⟨?_, fun hs => hs.canon_of_read hw⟩, fun hn => ?_⟩
  · simp only [exec_treeRead, hw, commit_eq]
  · simp only [exec_treeRead, hn]

/-- Settles O24: SET_ROOT reads no entry, and its mode check is that of IDLE. -/
theorem setRootSetsRootAndWalk : Obligations.SetRootSetsRootAndWalk := fun s idx =>
  ⟨decode_encode_of_isCommand (i := .setRoot idx) rfl, fun hm => exec_setRoot idx s hm,
    fun hm => rejectsWith_badMode (beq_eq_false_iff_ne.2 hm)⟩

end Sys2Proof.Machine

namespace Sys2Proof.Machine

/-! ## Bit strings of words and the padding (42_pack.md R142, R145) -/

/-- The string `v[n−1..0]` as the list of its bits by index. -/
theorem bitsBelow_eq_map_range {w : Nat} (v : BitVec w) (n : Nat) :
    bitsBelow v n = (List.range n).map (fun k => v.getLsbD (n - 1 - k)) := by
  induction n with
  | zero => rfl
  | succ n ih =>
    rw [bitsBelow, ih, List.range_succ_eq_map, List.map_cons, List.map_map]
    congr 1
    exact List.map_congr_left fun k _ => congrArg v.getLsbD (by omega)

/-- A bit string read from a word in two parts, the upper one first. -/
theorem bitsBelow_add {w : Nat} (v : BitVec w) (m n : Nat) :
    bitsBelow v (m + n) = bitsBelow (v >>> n) m ++ bitsBelow v n := by
  induction m with
  | zero => rw [Nat.zero_add]; rfl
  | succ m ih =>
    rw [Nat.add_right_comm, bitsBelow, ih, bitsBelow, BitVec.getLsbD_ushiftRight, Nat.add_comm n m]
    rfl

theorem bitsBelow_setWidth {w w' : Nat} (v : BitVec w) {k : Nat} (hk : k ≤ w') :
    bitsBelow (v.setWidth w') k = bitsBelow v k :=
  bitsBelow_congr _ _ k fun j hj => by simp [show j < w' by omega]

/-- The word 1, read as a bit string, is the padding of that length (R142). -/
theorem bitsBelow_one (k : Nat) : bitsBelow (1 : BitVec 7) (k + 1) = List.replicate k false ++ [true] := by
  induction k with
  | zero => rfl
  | succ k ih =>
    have hk : (1 : BitVec 7).getLsbD (k + 1) = false := by simp
    rw [bitsBelow, ih, hk]
    rfl

/-- The padding in front of a payload of `len` bits (R142). -/
def paddingBits (len : Nat) : List Bool := List.replicate (padLength len - 1) false ++ [true]

theorem paddedBits_eq (p : List Bool) : paddedBits p = paddingBits p.length ++ p := by
  simp [paddedBits, paddingBits, padLength]

/-! ## PushBit as bits (42_pack.md R143, R151; 10_state.md R30) -/

theorem Hbpu.pushBits_eq_foldl (bs : List Bool) (h : Hbpu) : h.pushBits bs = bs.foldl Hbpu.pushBit h := by
  induction bs generalizing h with
  | nil => rfl
  | cons b bs ih => exact ih (h.pushBit b)

/-- Pushing `v[n−1..0]`, bit by bit. -/
theorem Hbpu.pushBits_bitsBelow {w : Nat} (h : Hbpu) (v : BitVec w) (n : Nat) :
    h.pushBits (bitsBelow v n) = (List.range n).foldl (fun g k => g.pushBit (v.getLsbD (n - 1 - k))) h := by
  rw [Hbpu.pushBits_eq_foldl, bitsBelow_eq_map_range, List.foldl_map]

/-- The 8-bit intermediate of R143 spells the waiting bits and then the new one. -/
theorem bitsBelow_shiftIn (a : BitVec 7) (b : Bool) {k : Nat} (hk : k ≤ 7) :
    bitsBelow ((a.setWidth 8 <<< 1) ||| (BitVec.ofBool b).setWidth 8) (k + 1) = bitsBelow a k ++ [b] := by
  rw [bitsBelow_add _ k 1]
  congr 1
  · refine bitsBelow_congr _ _ k fun j hj => ?_
    simp [show 1 + j < 8 by omega, show j < 8 by omega]
  · simp [bitsBelow]

/-- PushBit appends its bit to the bits put out so far. -/
theorem Hbpu.pushBit_packedBits (h : Hbpu) (b : Bool) : (h.pushBit b).packedBits = h.packedBits ++ [b] := by
  have hl := h.accn.isLt
  by_cases hn : h.accn.toNat = 7
  · have hbyte := bitsBelow_shiftIn h.acc b (Nat.le_refl 7)
    rw [Hbpu.pushBit_full h b hn, Hbpu.packedBits, Hbpu.packedBits, hn, List.flatMap_append, List.append_assoc,
      List.append_assoc, ← hbyte]
    simp [bits8, bitsBelow]
  · have hacc : bitsBelow (h.pushBit b).acc (h.accn.toNat + 1) = bitsBelow h.acc h.accn.toNat ++ [b] := by
      rw [Hbpu.pushBit_part h b hn, ← bitsBelow_shiftIn h.acc b (by omega)]
      exact bitsBelow_setWidth (w' := 7) (k := h.accn.toNat + 1) _ (by omega)
    have hout : (h.pushBit b).out = h.out := by rw [Hbpu.pushBit_part h b hn]
    rw [Hbpu.packedBits, Hbpu.pushBit_accn, Nat.mod_eq_of_lt (by omega), hacc, hout, Hbpu.packedBits, List.append_assoc]

theorem Hbpu.pushBits_packedBits (bs : List Bool) (h : Hbpu) : (h.pushBits bs).packedBits = h.packedBits ++ bs := by
  induction bs generalizing h with
  | nil => exact (List.append_nil _).symm
  | cons b bs ih => rw [Hbpu.pushBits, ih, Hbpu.pushBit_packedBits, List.append_assoc]; rfl

theorem Hbpu.pushBit_out_extends (h : Hbpu) (b : Bool) : ∃ new, (h.pushBit b).out = h.out ++ new := by
  by_cases hn : h.accn.toNat = 7
  · rw [Hbpu.pushBit_full h b hn]; exact ⟨_, rfl⟩
  · rw [Hbpu.pushBit_part h b hn]; exact ⟨[], (List.append_nil _).symm⟩

/-- A push only appends to OUT. -/
theorem Hbpu.pushBits_out_extends (bs : List Bool) (h : Hbpu) : ∃ new, (h.pushBits bs).out = h.out ++ new := by
  induction bs generalizing h with
  | nil => exact ⟨[], (List.append_nil _).symm⟩
  | cons b bs ih =>
    obtain ⟨first, hfirst⟩ := h.pushBit_out_extends b
    obtain ⟨rest, hrest⟩ := ih (h.pushBit b)
    exact ⟨first ++ rest, by rw [Hbpu.pushBits, hrest, hfirst, List.append_assoc]⟩

/-- What an accepted push changes, with the counts. -/
theorem Hbpu.pushBits_eq_append {h : Hbpu} {bs : List Bool} (hr : bs.length ≤ h.remain.toNat) :
    ∃ (new : List Byte) (acc : BitVec 7) (accn : BitVec 3) (remain : Word),
      h.pushBits bs = { h with out := h.out ++ new, acc := acc, accn := accn, remain := remain } ∧
      remain.toNat = h.remain.toNat - bs.length ∧ accn.toNat = (h.accn.toNat + bs.length) % 8 ∧
      new.length = (h.accn.toNat + bs.length) / 8 := by
  have hrem := Hbpu.pushBits_remain_toNat bs h hr
  have hacc := Hbpu.pushBits_accn bs h
  have hout := Hbpu.pushBits_out_length bs h
  obtain ⟨new, hnew⟩ := Hbpu.pushBits_out_extends bs h
  obtain ⟨o, a, k, r, hp⟩ := Hbpu.pushBits_frame bs h
  rw [hnew, List.length_append] at hout
  rw [hp] at hrem hacc hnew
  dsimp only at hnew
  subst hnew
  exact ⟨new, a, k, r, hp, hrem, hacc, by omega⟩

theorem Hbpu.pushBits_withArg (bs : List Bool) (h : Hbpu) (a : Word) :
    { h with arg := a }.pushBits bs = { h.pushBits bs with arg := a } := by
  induction bs generalizing h with
  | nil => rfl
  | cons b bs ih => rw [Hbpu.pushBits, Hbpu.pushBit_withArg, ih]; rfl

/-! ## The state PACK_START leaves (42_pack.md R144) -/

theorem Hbpu.openPack_whole {h : Hbpu} (hl : h.arg.toNat % 8 = 0) :
    h.openPack = { h with
      out := h.out ++ [0x01], acc := 0, accn := 0, remain := h.arg, mode := .pack
      done := false, trunc := false, malpad := false } := by
  simp [Hbpu.openPack, padLength, hl]

theorem Hbpu.openPack_part {h : Hbpu} (hl : h.arg.toNat % 8 ≠ 0) :
    h.openPack = { h with
      acc := 1, accn := BitVec.ofNat 3 (padLength h.arg.toNat), remain := h.arg, mode := .pack
      done := false, trunc := false, malpad := false } := by
  have hp : padLength h.arg.toNat ≠ 8 := by unfold padLength; omega
  simp [Hbpu.openPack, hp]

/-- After PACK_START the padding has been put out: as the byte 0x01, or in ACC. -/
theorem Hbpu.openPack_packedBits {h : Hbpu} (ho : h.out = []) : h.openPack.packedBits = paddingBits h.arg.toNat := by
  obtain ⟨h1, -, -⟩ := padLength_range h.arg.toNat
  by_cases hl : h.arg.toNat % 8 = 0
  · have hp : padLength h.arg.toNat = 8 := by unfold padLength; omega
    rw [Hbpu.openPack_whole hl, paddingBits, hp, Hbpu.packedBits, ho]
    dsimp only
    decide
  · have hp : padLength h.arg.toNat % 8 = padLength h.arg.toNat - 1 + 1 := by unfold padLength at *; omega
    rw [Hbpu.packedBits, Hbpu.openPack_accn, hp, Hbpu.openPack_part hl]
    dsimp only
    rw [ho, bitsBelow_one, paddingBits]
    rfl

/-! ## Answers of the pack commands -/

theorem rejectsWith_of_exec {i : Instr} {s : State} {c : ErrCode} (h : exec i s = rejected s c) : RejectsWith i s c :=
  h.trans (rejected_eq s c)

theorem failsWith_of_exec {i : Instr} {s : State} {c : ErrCode} (h : exec i s = failed s c) : FailsWith i s c :=
  h.trans (failed_eq s c)

/-- The state an accepted PACK_BITS or PACK_SYM leaves: the bits `bs` pushed in order. -/
def State.pushBits (s : State) (bs : List Bool) : State := { s with hbpu := s.hbpu.pushBits bs }

@[simp] theorem State.pushBits_cfg (s : State) (bs : List Bool) : (s.pushBits bs).cfg = s.cfg := rfl
@[simp] theorem State.pushBits_hbpu (s : State) (bs : List Bool) : (s.pushBits bs).hbpu = s.hbpu.pushBits bs := rfl

theorem State.pushBits_append (s : State) (bs cs : List Bool) :
    s.pushBits (bs ++ cs) = (s.pushBits bs).pushBits cs := by
  simp only [State.pushBits, Hbpu.pushBits_append]

theorem State.pushBits_withArg (s : State) (bs : List Bool) (a : Word) :
    (s.withArg a).pushBits bs = (s.pushBits bs).withArg a := by
  simp only [State.pushBits, State.withArg, Hbpu.pushBits_withArg]

/-- Pushes keep ARG, so writing back its word undoes another write of it. -/
theorem State.pushBits_withArg_restore (s : State) (bs : List Bool) (a : Word) :
    ((s.pushBits bs).withArg a).withArg s.hbpu.arg = s.pushBits bs := by
  rw [← Hbpu.pushBits_arg bs s.hbpu]
  rfl

theorem exec_packBits_accept {s : State} {n : BitVec 6} (hm : s.hbpu.mode = .pack) (h1 : 1 ≤ n.toNat)
    (h2 : n.toNat ≤ 32) (hr : n.toNat ≤ s.hbpu.remain.toNat) (hf : s.hbpu.bytesMade n.toNat ≤ s.outRoom) :
    exec (.packBits n) s = .next (s.pushBits (bitsBelow s.hbpu.arg n.toNat)) := by
  rw [exec_packBits n s hm, if_neg (by unfold maxPush; omega), if_neg (by omega), if_neg (by omega)]; rfl

theorem symbolBit_eq_some_iff {y : Byte} {b : Bool} :
    symbolBit y = some b ↔ (y = 0x30 ∨ y = 0x31) ∧ b = (y == 0x31) := by
  unfold symbolBit
  split
  · next h => subst h; simp [eq_comm]
  · split
    · next h => subst h; simp [eq_comm]
    · next h0 h1 => simp only [reduceCtorEq, h0, h1, or_self, false_and]

theorem symbolBit_eq_none_iff {y : Byte} : symbolBit y = none ↔ y ≠ 0x30 ∧ y ≠ 0x31 := by
  unfold symbolBit
  split
  · next h => simp [h]
  · split
    · next h => simp [h]
    · next h0 h1 => simp only [h0, h1, ne_eq, not_false_eq_true, and_self]

/-- PACK_SYM of a valid symbol. -/
theorem exec_packSym_symbol {s : State} {y : Byte} {b : Bool} (hm : s.hbpu.mode = .pack) (hy : symbolBit y = some b) :
    exec (.packSym y) s =
      if s.hbpu.remain = 0 then failed s .lengthOverrun
      else if s.outRoom < s.hbpu.bytesMade 1 then rejected s .outFull
      else commit s (s.hbpu.pushBit b) := by
  simp only [exec_packSym y s hm, hy]

/-- How PACK_START reaches PACK. -/
theorem packStart_commits {s t : State} (h : exec .packStart s = .next t) (hs : s.hbpu.mode = .idle)
    (ht : t.hbpu.mode = .pack) : s.hbpu.out = [] ∧ t = { s with hbpu := s.hbpu.openPack } := by
  have he : Effect s .packStart t := exec_effect .packStart s t h
  have hne : t.hbpu.mode ≠ s.hbpu.mode := by simp [hs, ht]
  cases he with
  | packStart hm ho => exact ⟨ho, rfl⟩
  | quiet | reject => exact absurd rfl hne
  | push j bs hm => simp [hs] at hm
  | fail => cases ht

/-- How PACK_END comes to IDLE from another mode. -/
theorem packEnd_commits {s t : State} (h : exec .packEnd s = .next t) (hs : s.hbpu.mode ≠ .idle)
    (ht : t.hbpu.mode = .idle) :
    s.hbpu.mode = .pack ∧ s.hbpu.remain = 0 ∧
      t = { s with hbpu := { s.hbpu with mode := .idle, done := true } } := by
  have he : Effect s .packEnd t := exec_effect .packEnd s t h
  have hne : t.hbpu.mode ≠ s.hbpu.mode := by rw [ht]; exact hs.symm
  cases he with
  | packEnd hm hr => exact ⟨hm, hr, rfl⟩
  | quiet | reject => exact absurd rfl hne
  | push j bs => exact absurd (Hbpu.pushBits_mode bs s.hbpu) hne
  | fail => cases ht

/-! ## The pack commands, case by case (42_pack.md R141 to R148, R150) -/

/-- Settles O26: `padLength` is the formula of R141, whose range and alignment `padLength_range` gives. -/
theorem paddingLength : Obligations.PaddingLength := fun len =>
  have ⟨h1, h8, hmod⟩ := padLength_range len
  ⟨rfl, h1, h8, hmod, by unfold padLength; omega⟩

/-- Settles O27: outside IDLE the mode check rejects, with OUT not empty NOT_DRAINED, and else the state is `openPack`,
in its two cases. -/
theorem packStartEmitsThePadding : Obligations.PackStartEmitsThePadding := by
  refine fun s => ⟨rfl, fun hm => rejectsWith_badMode (beq_eq_false_iff_ne.2 hm), fun hm ho => ?_, fun hm ho hl => ?_,
    fun hm ho hl => ⟨BitVec.ofNat 3 (padLength s.hbpu.arg.toNat), ?_, ?_⟩⟩
  · refine rejectsWith_of_exec ?_
    rw [exec_packStart s hm, if_pos (mt List.length_eq_zero_iff.1 ho)]
  · rw [exec_packStart s hm, if_neg (by simp [ho]), commit_eq, Hbpu.openPack_whole hl, ho]
    rfl
  · rw [BitVec.toNat_ofNat]
    unfold padLength; omega
  · rw [exec_packStart s hm, if_neg (by simp [ho]), commit_eq, Hbpu.openPack_part hl]

/-- Settles O28: PushBit at ACCN = 7 (`pushBit_full`) and below it (`pushBit_part`). -/
theorem pushBitAppendsOneBit : Obligations.PushBitAppendsOneBit := by
  intro h b
  obtain ⟨out, acc, accn, he⟩ := h.pushBit_frame b
  have hn := h.pushBit_accn b
  refine ⟨out, acc, accn, he, by rw [he] at hn; exact hn, fun h7 => ?_, fun h7 => ?_⟩
  · rw [Hbpu.pushBit_full h b h7] at he
    cases he
    exact ⟨rfl, _, rfl, pushBit_byte_toNat h.acc b⟩
  · rw [Hbpu.pushBit_part h b h7] at he
    cases he
    exact ⟨rfl, by rw [BitVec.toNat_setWidth, pushBit_byte_toNat]⟩

/-- Settles O29: the checks of PACK_BITS in their order, and the pushes as a fold over the bit positions. -/
theorem packBitsPushesTheLowBitsOfArg : Obligations.PackBitsPushesTheLowBitsOfArg := by
  refine fun s n => ⟨decode_encode_of_isCommand (i := .packBits n) rfl,
    fun hm => rejectsWith_badMode (beq_eq_false_iff_ne.2 hm), fun hm hn => rejectsWith_of_exec ?_,
    fun hm h1 h2 => ⟨fun hr => failsWith_of_exec ?_, fun hr => ⟨fun hf => rejectsWith_of_exec ?_, fun hf => ?_⟩⟩⟩
  · rw [exec_packBits n s hm]; exact if_pos hn
  · rw [exec_packBits n s hm, if_neg (by unfold maxPush; omega), if_pos hr]
  · rw [exec_packBits n s hm, if_neg (by unfold maxPush; omega), if_neg (by omega)]; exact if_pos hf
  · rw [exec_packBits_accept hm h1 h2 hr hf, State.pushBits, Hbpu.pushBits_bitsBelow]

/-- Settles O30: an accepted PACK_BITS is `pushBits`, which changes what it should by the right counts
(`pushBits_eq_append`) and appends its bits (`pushBits_packedBits`). -/
theorem packBitsExtendsTheBitString : Obligations.PackBitsExtendsTheBitString := by
  intro s n hm h1 h2 hr hf
  obtain ⟨new, acc, accn, remain, hp, hrem, hacc, hnew⟩ :=
    Hbpu.pushBits_eq_append (h := s.hbpu) (bs := bitsBelow s.hbpu.arg n.toNat) (by rwa [bitsBelow_length])
  rw [bitsBelow_length] at hrem hacc hnew
  exact ⟨new, acc, accn, remain, _, exec_packBits_accept hm h1 h2 hr hf, by rw [State.pushBits, hp], hrem, hacc, hnew,
    Hbpu.pushBits_packedBits _ s.hbpu⟩

/-- Settles O31: the checks of PACK_SYM in their order; a valid symbol is the bit `y == 0x31`. -/
theorem packSymPushesOneSymbol : Obligations.PackSymPushesOneSymbol := by
  refine fun s y => ⟨decode_encode_of_isCommand (i := .packSym y) rfl,
    fun hm => rejectsWith_badMode (beq_eq_false_iff_ne.2 hm), fun hm h0 h1 => failsWith_of_exec ?_, fun hm hy => ?_⟩
  · simp only [exec_packSym y s hm, symbolBit_eq_none_iff.2 ⟨h0, h1⟩]
  · have hx := exec_packSym_symbol hm (symbolBit_eq_some_iff.2 ⟨hy, rfl⟩)
    refine ⟨fun hr => failsWith_of_exec ?_, fun hr hf => rejectsWith_of_exec ?_, fun hr hf => ?_⟩
    · rw [hx, if_pos hr]
    · rw [hx, if_neg hr]; exact if_pos hf
    · rw [hx, if_neg hr, commit_eq]; exact if_neg (Nat.not_lt.2 hf)

/-- Settles O32: the mode check, and the one check of PACK_END. -/
theorem packEndNeedsEveryBit : Obligations.PackEndNeedsEveryBit := by
  refine fun s => ⟨rfl, fun hm => rejectsWith_badMode (beq_eq_false_iff_ne.2 hm),
    fun hm hr => failsWith_of_exec ?_, fun hm hr => ?_⟩
  · rw [exec_packEnd s hm, if_pos hr]
  · rw [exec_packEnd s hm, if_neg (not_not_intro hr), commit_eq]

/-- Settles O33: the invariant holds after PACK_END, and in IDLE it has ACCN = 0, hence ACC < 2 ^ 0. -/
theorem packEndLeavesNoBitWaiting : Obligations.PackEndLeavesNoBitWaiting := by
  intro s t hs hm h ht
  have hinv : Inv t := exec_keepsInv h hs
  obtain ⟨hn, -⟩ := hinv.idleClean ht
  have hacc : t.hbpu.acc.toNat < 1 := by simpa [hn] using hinv.accBelow
  obtain ⟨-, -, rfl⟩ := packEnd_commits h (by simp [hm]) ht
  exact ⟨hn, BitVec.eq_of_toNat_eq (Nat.lt_one_iff.1 hacc), rfl⟩

/-- PACK_SYM of the symbol of ARG[0] and PACK_BITS 1 make the same checks and push the same bit. -/
theorem exec_packSym_eq_packBits_one {s : State} (hm : s.hbpu.mode = .pack) :
    exec (.packSym (symbolByte (s.hbpu.arg.getLsbD 0))) s = exec (.packBits 1) s := by
  have hy : symbolBit (symbolByte (s.hbpu.arg.getLsbD 0)) = some (s.hbpu.arg.getLsbD 0) := by
    cases s.hbpu.arg.getLsbD 0 <;> rfl
  have hr : s.hbpu.remain = 0 ↔ s.hbpu.remain.toNat < 1 := by
    rw [Nat.lt_one_iff, ← BitVec.toNat_inj]; rfl
  have hb := exec_packBits 1 s hm
  rw [if_neg (by decide)] at hb
  rw [exec_packSym_symbol hm hy, hb]
  simp only [hr]
  rfl

/-- PACK_BITS after a push, when both fit: the push raises ACCN and OUT by what the second check adds up. -/
theorem exec_packBits_after_pushBits {s : State} {bs : List Bool} {n : BitVec 6} (hm : s.hbpu.mode = .pack)
    (h1 : 1 ≤ n.toNat) (h2 : n.toNat ≤ 32) (hr : bs.length + n.toNat ≤ s.hbpu.remain.toNat)
    (hf : s.hbpu.bytesMade (bs.length + n.toNat) ≤ s.outRoom) :
    exec (.packBits n) (s.pushBits bs) = .next (s.pushBits (bs ++ bitsBelow s.hbpu.arg n.toNat)) := by
  have hrem : (s.pushBits bs).hbpu.remain.toNat = s.hbpu.remain.toNat - bs.length :=
    Hbpu.pushBits_remain_toNat bs s.hbpu (by omega)
  have hacc : (s.pushBits bs).hbpu.accn.toNat = (s.hbpu.accn.toNat + bs.length) % 8 := Hbpu.pushBits_accn bs s.hbpu
  have hout : (s.pushBits bs).hbpu.out.length = s.hbpu.out.length + (s.hbpu.accn.toNat + bs.length) / 8 :=
    Hbpu.pushBits_out_length bs s.hbpu
  have harg : (s.pushBits bs).hbpu.arg = s.hbpu.arg := Hbpu.pushBits_arg bs s.hbpu
  have hfit : (s.pushBits bs).hbpu.bytesMade n.toNat ≤ (s.pushBits bs).outRoom := by
    simp only [Hbpu.bytesMade, State.outRoom, hacc, hout, State.pushBits_cfg] at hf ⊢
    omega
  rw [exec_packBits_accept ((Hbpu.pushBits_mode bs s.hbpu).trans hm) h1 h2 (by omega) hfit, harg, State.pushBits_append]

/-- Settles O34: `bitsBelow_add` divides the bits between the two commands, and the second finds the room that the first
leaves (`exec_packBits_after_pushBits`). -/
theorem splitOfPushesDoesNotShow : Obligations.SplitOfPushesDoesNotShow := by
  refine ⟨fun s m n hm h1 h2 h32 hr hf => ?_, fun s hm => exec_packSym_eq_packBits_one hm⟩
  have hsum : (m + n).toNat = m.toNat + n.toNat := by rw [BitVec.toNat_add]; omega
  have hlen := bitsBelow_length (s.hbpu.arg >>> n.toNat) m.toNat
  have hfirst := exec_packBits_accept (s := s.withArg (s.hbpu.arg >>> n.toNat)) (n := m) hm h1 (by omega)
    (Nat.le_trans (Nat.le_add_right _ _) hr)
    (Nat.le_trans (Nat.div_le_div_right (Nat.add_le_add_left (Nat.le_add_right _ _) _)) hf)
  have hsecond := exec_packBits_after_pushBits (s := s) (bs := bitsBelow (s.hbpu.arg >>> n.toNat) m.toNat) (n := n)
    hm h2 (by omega) (by rw [hlen]; exact hr) (by rw [hlen]; exact hf)
  have hwhole := exec_packBits_accept (s := s) (n := m + n) hm (by omega) (by omega) (by omega) (by rw [hsum]; exact hf)
  rw [State.pushBits_withArg] at hfirst
  rw [← bitsBelow_add, ← hsum] at hsecond
  refine ⟨_, _, hfirst, ?_, hwhole⟩
  exact (congrArg (exec (.packBits n)) (State.pushBits_withArg_restore s _ _)).trans hsecond

/-! ## Sessions as a host sees them (20_memory.md R69) -/

/-- The session after the command or access `j` has taken it to the state `t`. -/
def Session.after (x : Session) (j : Instr) (t : State) : Session :=
  { st := t
    pushed := x.pushed ++ pushedBy j x.st t
    fed := x.fed ++ fedBy j x.st
    drained := x.drained ++ drainedBy j x.st }

theorem Session.run_cons {i : Instr} {is : List Instr} {x y : Session} (h : Session.run (i :: is) x = some y) :
    ∃ t, exec i x.st = .next t ∧ Session.run is (x.after (plain i) t) = some y := by
  rw [Session.run] at h
  split at h
  · next t ht => exact ⟨t, ht, h⟩
  · cases h
  · cases h

/-- A command or access that neither abandons nor ends a session. -/
structure KeepsSession (j : Instr) : Prop where
  ne_softReset : j ≠ .softReset
  ne_abort : j ≠ .abort
  ne_packEnd : j ≠ .packEnd
  ne_unpackEnd : j ≠ .unpackEnd

theorem keepsSession_plain {i : Instr} (h : staysInSession i = true) : KeepsSession (plain i) := by
  unfold staysInSession at h
  constructor <;> (intro e; rw [e] at h; cases h)

/-- What every effect but those that abandon or end a session keeps holds at the end of a run. -/
theorem Session.run_keeps {P : Session → Prop}
    (hstep : ∀ (x : Session) (j : Instr) (t : State), Effect x.st j t → KeepsSession j → P x → P (x.after j t))
    {is : List Instr} (his : ∀ i ∈ is, staysInSession i = true) {x y : Session} (hrun : Session.run is x = some y)
    (hx : P x) : P y := by
  induction is generalizing x with
  | nil => cases hrun; exact hx
  | cons i is ih =>
    obtain ⟨t, ht, hrest⟩ := Session.run_cons hrun
    obtain ⟨hi, his⟩ := List.forall_mem_cons.1 his
    exact ih his hrest (hstep x (plain i) t (exec_effect i x.st t ht) (keepsSession_plain hi) hx)

/-! ## A pack session (42_pack.md R149) -/

theorem pushedBy_of_remain_eq {j : Instr} {s t : State} (h : t.hbpu.remain = s.hbpu.remain) : pushedBy j s t = [] :=
  if_pos h

/-- The host's account of an accepted push has the bits pushed. -/
theorem pushedBy_pushBits {s : State} {j : Instr} {bs : List Bool} (hr : bs.length ≤ s.hbpu.remain.toNat)
    (h1 : 1 ≤ bs.length)
    (hj : (∃ n : BitVec 6, j = .packBits n ∧ bs = bitsBelow s.hbpu.arg n.toNat) ∨
      ∃ (y : Byte) (b : Bool), j = .packSym y ∧ symbolBit y = some b ∧ bs = [b]) :
    pushedBy j s (s.pushBits bs) = bs := by
  have hne : (s.pushBits bs).hbpu.remain ≠ s.hbpu.remain := fun e => by
    have hrem := Hbpu.pushBits_remain_toNat bs s.hbpu hr
    rw [show (s.hbpu.pushBits bs).remain = s.hbpu.remain from e] at hrem
    omega
  rcases hj with ⟨n, rfl, rfl⟩ | ⟨y, b, rfl, hy, rfl⟩
  · exact if_neg hne
  · obtain ⟨-, rfl⟩ := symbolBit_eq_some_iff.1 hy
    exact if_neg hne

/-- Only a read of OUT takes a byte out of it. -/
theorem drainedBy_eq_nil {j : Instr} {s : State} (h : j = .rdOut → s.hbpu.out = []) : drainedBy j s = [] := by
  unfold drainedBy
  split
  · rw [h rfl]; rfl
  · rfl

/-- A pack session of `len` bits that has met no fatal error: the bits drained and those put out since are the padding
and the bits pushed, and REMAIN counts the bits still to come. -/
structure PackInProgress (len : Nat) (x : Session) : Prop where
  inPack : x.st.hbpu.mode = .pack
  bits : x.drained.flatMap bits8 ++ x.st.hbpu.packedBits = paddingBits len ++ x.pushed
  count : x.pushed.length + x.st.hbpu.remain.toNat = len

theorem packInProgress_openPack {s : State} (ho : s.hbpu.out = []) :
    PackInProgress s.hbpu.arg.toNat
      { st := { s with hbpu := s.hbpu.openPack }, pushed := [], fed := [], drained := [] } where
  inPack := s.hbpu.openPack_mode
  bits := (Hbpu.openPack_packedBits ho).trans (List.append_nil _).symm
  count := by rw [Hbpu.openPack_remain]; exact Nat.zero_add _

/-- An effect that leaves MODE, the bits put out and REMAIN. -/
theorem PackInProgress.after_of_eq {len : Nat} {x : Session} (p : PackInProgress len x) {j : Instr} {t : State}
    (hm : t.hbpu.mode = x.st.hbpu.mode) (hb : t.hbpu.packedBits = x.st.hbpu.packedBits)
    (hr : t.hbpu.remain = x.st.hbpu.remain) (hd : drainedBy j x.st = []) : PackInProgress len (x.after j t) where
  inPack := hm.trans p.inPack
  bits := by
    simp only [Session.after, hd, pushedBy_of_remain_eq hr, List.append_nil, hb]
    exact p.bits
  count := by
    simp only [Session.after, pushedBy_of_remain_eq hr, List.append_nil, hr]
    exact p.count

/-- A read of OUT moves one byte from OUT to the host. -/
theorem PackInProgress.after_pop {len : Nat} {x : Session} (p : PackInProgress len x) {b : Byte} {rest : List Byte}
    (ho : x.st.hbpu.out = b :: rest) (w : Word) :
    PackInProgress len (x.after .rdOut
      { x.st with hbpu := { x.st.hbpu with out := rest }, replies := x.st.replies ++ [w] }) where
  inPack := p.inPack
  bits := by
    have hb := p.bits
    simpa [Session.after, pushedBy, drainedBy, Hbpu.packedBits, ho] using hb
  count := by simpa [Session.after, pushedBy] using p.count

theorem PackInProgress.after_push {len : Nat} {x : Session} (p : PackInProgress len x) {j : Instr} {bs : List Bool}
    (hr : bs.length ≤ x.st.hbpu.remain.toNat) (hpush : pushedBy j x.st (x.st.pushBits bs) = bs)
    (hd : drainedBy j x.st = []) : PackInProgress len (x.after j (x.st.pushBits bs)) where
  inPack := (Hbpu.pushBits_mode bs _).trans p.inPack
  bits := by
    simp only [Session.after, hd, hpush, List.append_nil, State.pushBits_hbpu, Hbpu.pushBits_packedBits]
    rw [← List.append_assoc, p.bits, List.append_assoc]
  count := by
    have hc := p.count
    simp only [Session.after, hpush, State.pushBits_hbpu, Hbpu.pushBits_remain_toNat bs _ hr, List.length_append]
    omega

/-- Where a pack session stands that nothing has abandoned or ended: in progress, or failed. -/
def PackOpen (len : Nat) (x : Session) : Prop := x.st.hbpu.mode = .error ∨ PackInProgress len x

theorem PackInProgress.after_effect {len : Nat} {x : Session} (p : PackInProgress len x) {j : Instr} {t : State}
    (h : Effect x.st j t) (hj : KeepsSession j) : PackOpen len (x.after j t) := by
  have hm := p.inPack
  cases h with
  | quiet j rs hq ho => exact .inr (p.after_of_eq rfl rfl rfl (drainedBy_eq_nil ho))
  | pop b rest w ho => exact .inr (p.after_pop ho w)
  | setPad | setArg | treeRead => exact .inr (p.after_of_eq rfl rfl rfl rfl)
  | push j bs hp hr h1 h2 ho hbs =>
    have hd : drainedBy j x.st = [] := by rcases hbs with ⟨n, rfl, -⟩ | ⟨y, b, rfl, -⟩ <;> rfl
    exact .inr (p.after_push hr (pushedBy_pushBits hr h1 hbs) hd)
  | reject j c hno =>
    exact .inr (p.after_of_eq rfl rfl rfl (drainedBy_eq_nil (by rintro rfl; exact absurd rfl (hno _))))
  | fail => exact .inl rfl
  | softReset => exact absurd rfl hj.ne_softReset
  | abort => exact absurd rfl hj.ne_abort
  | packEnd => exact absurd rfl hj.ne_packEnd
  | unpackEnd => exact absurd rfl hj.ne_unpackEnd
  | treeWrite i hi | setRoot i hi | packStart hi | unpackStart u hi | unpackByte b bits d w hi => simp [hm] at hi

/-- Only ABORT and SOFT_RESET leave ERROR (10_state.md R24). -/
theorem Effect.keepsErrorMode {s t : State} {j : Instr} (h : Effect s j t) (hm : s.hbpu.mode = .error)
    (hj : KeepsSession j) : t.hbpu.mode = .error := by
  by_contra hne
  rcases h.mode_arrow (by rwa [hm]) with
    ⟨-, hi, -⟩ | ⟨-, hi, -⟩ | ⟨-, hi, -⟩ | ⟨-, hi, -⟩ | ⟨-, -, he⟩ | ⟨ha | hs, -⟩
  · simp [hm] at hi
  · simp [hm] at hi
  · simp [hm] at hi
  · simp [hm] at hi
  · exact hne he
  · exact hj.ne_abort ha
  · exact hj.ne_softReset hs

theorem PackOpen.after_effect {len : Nat} {x : Session} (p : PackOpen len x) {j : Instr} {t : State}
    (h : Effect x.st j t) (hj : KeepsSession j) : PackOpen len (x.after j t) := by
  rcases p with herr | hp
  · exact .inl (h.keepsErrorMode herr hj)
  · exact hp.after_effect h hj

theorem PackOpen.mode_ne_idle {len : Nat} {x : Session} (p : PackOpen len x) : x.st.hbpu.mode ≠ .idle := by
  rcases p with herr | hp
  · simp [herr]
  · simp [hp.inPack]

/-- With REMAIN = 0 the bits put out are the padded string, whole bytes, so none of them waits in ACC. -/
theorem PackInProgress.packedFile_eq {len : Nat} {x : Session} (p : PackInProgress len x)
    (hr : x.st.hbpu.remain = 0) :
    x.pushed.length = len ∧ x.drained ++ x.st.hbpu.out = packedFile x.pushed := by
  have hlen : x.pushed.length = len := by simpa [hr] using p.count
  have hbits : (x.drained ++ x.st.hbpu.out).flatMap bits8 ++ bitsBelow x.st.hbpu.acc x.st.hbpu.accn.toNat =
      paddedBits x.pushed := by
    rw [paddedBits_eq, hlen, ← p.bits, Hbpu.packedBits, List.flatMap_append, List.append_assoc]
  have hn : x.st.hbpu.accn.toNat = 0 := by
    have hl := x.st.hbpu.accn.isLt
    have hc := congrArg List.length hbits
    rw [paddedBits_length, List.length_append, bitsBelow_length, List.length_flatMap] at hc
    simp only [bits8_length, List.map_const', List.sum_replicate, smul_eq_mul] at hc
    omega
  rw [hn, bitsBelow, List.append_nil] at hbits
  exact ⟨hlen, by rw [packedFile, ← hbits, cutBytes_flatMap_bits8]⟩

/-- Settles O35: the session is in progress after PACK_START, every instruction keeps it so or ends it in ERROR for
good, and PACK_END commits only in PACK with REMAIN = 0. -/
theorem packSessionMakesThePackedFile : Obligations.PackSessionMakesThePackedFile := by
  intro s t u x is hstart hidle hpack hstay hrun hend hu
  obtain ⟨ho, rfl⟩ := packStart_commits hstart hidle hpack
  have hx : PackOpen s.hbpu.arg.toNat x :=
    Session.run_keeps (fun _ _ _ h hj p => PackOpen.after_effect p h hj) hstay hrun (.inr (packInProgress_openPack ho))
  obtain ⟨hm, hr, rfl⟩ := packEnd_commits hend hx.mode_ne_idle hu
  rcases hx with herr | hp
  · simp [herr] at hm
  · exact hp.packedFile_eq hr

end Sys2Proof.Machine

namespace Sys2Proof.Machine

/-! ## The payload bits of a file byte (43_unpack_decode.md R171 to R174) -/

/-- A first byte other than 0x00 gives the bits below its highest 1 and drops nothing (R171). -/
theorem byteBits_first {b : Byte} (hb : b ≠ 0) (p : PadMode) :
    byteBits true p b = some (bitsBelow b (highestOne b), false) := if_neg hb

/-- Settles O37: the index is `highestOne b`, whose bit string `highestOne_spec` ties to the first '1'. -/
theorem firstBytePayload : Obligations.FirstBytePayload := by
  intro b pad hb
  obtain ⟨h8, hone, habove, hafter⟩ := highestOne_spec b hb
  refine ⟨highestOne b, h8, hone, fun j hj h8' => habove j h8' hj, ?_, ?_⟩
  · rw [byteBits_first hb, bitsBelow_eq_map_range]
  · rw [byteBits_first hb, hafter]

/-- Settles O38: the three clauses on ByteBits compute, and a first byte 0x00 fails or is dropped as PADMODE says. -/
theorem malformedAndLaterBytes : Obligations.MalformedAndLaterBytes :=
  ⟨rfl, rfl, byteBits_later, fun _ hm hf hp => unpackByte_zero_strict hm hf hp,
    fun _ hm hf hp => exec_unpackByte_zero_compat hm hf hp⟩

/-! ## WalkBit, case by case (43_unpack_decode.md R175) -/

theorem nodeChar_toNat (w : Word) : (nodeChar w).toNat = w.toNat % 128 := by
  rw [nodeChar, BitVec.toNat_setWidth, BitVec.extractLsb'_toNat]
  omega

section

variable {m : Memory} {x : Walk} {n c : Word}

theorem walkBit_atLeaf (hn : m.read x.node = some n) (hl : nodeIsLeaf n = true) (r : Index) (b : Bool) :
    walkBit m r b x = .error .atLeaf := by
  simp only [walkBit, hn, hl, if_true]

theorem walkBit_toLeaf {b : Bool} (hn : m.read x.node = some n) (hl : nodeIsLeaf n = false)
    (hc : m.read (nodeChild n b) = some c) (hcl : nodeIsLeaf c = true) (r : Index) :
    walkBit m r b x = .ok { node := r, inCode := false, out := x.out ++ [nodeChar c] } := by
  simp [walkBit, hn, hl, hc, hcl]

theorem walkBit_toNode {b : Bool} (hn : m.read x.node = some n) (hl : nodeIsLeaf n = false)
    (hc : m.read (nodeChild n b) = some c) (hcl : nodeIsLeaf c = false) (r : Index) :
    walkBit m r b x = .ok { x with node := nodeChild n b, inCode := true } := by
  simp [walkBit, hn, hl, hc, hcl]

end

/-- Settles O39: a case of what the walk's node is, and then of what the child is. -/
theorem walkBitMovesOneEdge : Obligations.WalkBitMovesOneEdge := by
  intro m root b x n hn
  refine ⟨fun hl => walkBit_atLeaf hn hl root b, fun hl c hc => ⟨fun hcl => ?_, fun hcl => ?_⟩⟩
  · exact ⟨nodeChar c, nodeChar_toNat c, walkBit_toLeaf hn hl hc hcl root⟩
  · exact walkBit_toNode hn hl hc hcl root

/-! ## Walks over a bit string -/

/-- A walk stops with TREE_FAULT only where it stands at a leaf. -/
theorem walkBit_ne_atLeaf {m : Memory} {r : Index} {b : Bool} {x : Walk} (h : Inside m x.node) :
    walkBit m r b x ≠ .error .atLeaf := by
  obtain ⟨n, hn, hl⟩ := h
  cases hc : m.read (nodeChild n b) with
  | none => simp [walkBit, hn, hl, hc]
  | some c =>
    cases hcl : nodeIsLeaf c with
    | true => rw [walkBit_toLeaf hn hl hc hcl]; nofun
    | false => rw [walkBit_toNode hn hl hc hcl]; nofun

/-- Under an internal root a walk that stands at an internal node never comes to stand at a leaf (R182). -/
theorem walkBits_ne_atLeaf {m : Memory} {r : Index} (hr : Inside m r) (bs : List Bool) {x : Walk}
    (hx : Inside m x.node) : walkBits m r bs x ≠ .error .atLeaf := by
  induction bs generalizing x with
  | nil => nofun
  | cons b bs ih =>
    rw [walkBits]
    cases hy : walkBit m r b x with
    | error e =>
      rintro ⟨⟩
      exact walkBit_ne_atLeaf hx hy
    | ok y =>
      obtain ⟨-, hroot, hcode⟩ := walkBit_inside hy
      refine ih ?_
      cases hi : y.inCode with
      | true => exact hcode hi
      | false => rwa [hroot hi]

/-- A walk appends only 7-bit characters. -/
theorem walkBits_out_ascii {m : Memory} {r : Index} (bs : List Bool) {x y : Walk} (h : walkBits m r bs x = .ok y)
    (hx : ∀ c ∈ x.out, c.toNat < 128) : ∀ c ∈ y.out, c.toNat < 128 := by
  induction bs generalizing x with
  | nil => cases h; exact hx
  | cons b bs ih =>
    rw [walkBits] at h
    split at h
    · cases h
    · next z hz =>
      refine ih h ?_
      obtain ⟨n, c, -, -, -, ⟨-, rfl⟩ | ⟨-, rfl⟩⟩ := walkBit_ok m r b x z hz
      · rw [List.forall_mem_append]
        refine ⟨hx, List.forall_mem_singleton.2 ?_⟩
        rw [nodeChar_toNat]
        exact Nat.mod_lt _ (by decide)
      · exact hx

/-- `x` with the characters `pre` in front of its own. -/
def Walk.after (pre : List Byte) (x : Walk) : Walk := { x with out := pre ++ x.out }

/-- What a walk has emitted does not steer it. -/
theorem walkBit_after {m : Memory} {r : Index} {b : Bool} {x y : Walk} (pre : List Byte) (h : walkBit m r b x = .ok y) :
    walkBit m r b (x.after pre) = .ok (y.after pre) := by
  obtain ⟨n, c, hn, hl, hc, ⟨hcl, rfl⟩ | ⟨hcl, rfl⟩⟩ := walkBit_ok m r b x y h
  · rw [walkBit_toLeaf (x := x.after pre) hn hl hc hcl]
    simp [Walk.after]
  · exact walkBit_toNode (x := x.after pre) hn hl hc hcl r

theorem walkBits_after {m : Memory} {r : Index} (bs : List Bool) {x y : Walk} (pre : List Byte)
    (h : walkBits m r bs x = .ok y) : walkBits m r bs (x.after pre) = .ok (y.after pre) := by
  induction bs generalizing x with
  | nil => cases h; rfl
  | cons b bs ih =>
    rw [walkBits] at h ⊢
    split at h
    · cases h
    · next z hz => rw [walkBit_after pre hz]; exact ih h

/-! ## The output of a payload in each output mode (43_unpack_decode.md R175, R176) -/

theorem Hbpu.unpackBits_raw {h : Hbpu} (hu : h.umode = .raw) (bits : List Bool) :
    h.unpackBits bits = .ok { node := h.walk, inCode := h.inCode, out := bits.map symbolByte } := by
  simp only [Hbpu.unpackBits, hu]

theorem Hbpu.unpackBits_decode {h : Hbpu} (hu : h.umode = .decode) (bits : List Bool) :
    h.unpackBits bits = walkBits h.tree h.root bits { node := h.walk, inCode := h.inCode, out := [] } := by
  simp only [Hbpu.unpackBits, hu]

/-! ## Answers of the unpack commands -/

theorem exec_unpackByte_malformed {s : State} {b : Byte} (hm : s.hbpu.mode = .unpack)
    (hb : byteBits s.hbpu.first s.hbpu.padmode b = none) : exec (.unpackByte b) s = failed s .malformedPadding := by
  simp only [exec_unpackByte b s hm, hb]

section

variable {s : State} {b : Byte} {bits : List Bool} {dropped : Bool} (hm : s.hbpu.mode = .unpack)
  (hb : byteBits s.hbpu.first s.hbpu.padmode b = some (bits, dropped))

include hm hb

theorem exec_unpackByte_atLeaf (hx : s.hbpu.unpackBits bits = .error .atLeaf) :
    exec (.unpackByte b) s = failed s .treeFault := by
  simp only [exec_unpackByte b s hm, hb, hx]

theorem exec_unpackByte_unwritten {i : Index} (hx : s.hbpu.unpackBits bits = .error (.unwritten i)) :
    exec (.unpackByte b) s = .fault (.treeUnwritten i) := by
  simp only [exec_unpackByte b s hm, hb, hx]

theorem exec_unpackByte_outFull {x : Walk} (hx : s.hbpu.unpackBits bits = .ok x) (hf : s.outRoom < x.out.length) :
    exec (.unpackByte b) s = rejected s .outFull := by
  simp only [exec_unpackByte b s hm, hb, hx, if_pos hf]

theorem exec_unpackByte_accept {x : Walk} (hx : s.hbpu.unpackBits bits = .ok x) (hf : x.out.length ≤ s.outRoom) :
    exec (.unpackByte b) s = commit s (s.hbpu.acceptByte x dropped) := by
  simp only [exec_unpackByte b s hm, hb, hx, if_neg (Nat.not_lt.2 hf)]

/-- A byte whose outputs can be computed is accepted or rejected, and either way the session goes on. -/
theorem exec_unpackByte_keepsMode {x : Walk} {t : State} (hx : s.hbpu.unpackBits bits = .ok x)
    (h : exec (.unpackByte b) s = .next t) : t.hbpu.mode = .unpack := by
  rcases Nat.lt_or_ge s.outRoom x.out.length with hf | hf
  · rw [exec_unpackByte_outFull hm hb hx hf] at h
    cases h
    exact (Hbpu.reject_mode _ _).trans hm
  · rw [exec_unpackByte_accept hm hb hx hf] at h
    cases h
    exact hm

/-- A walk that stops at a leaf is the only way UNPACK_BYTE, with payload bits, ends in TREE_FAULT. -/
theorem failsWith_treeFault_iff :
    FailsWith (.unpackByte b) s .treeFault ↔ s.hbpu.unpackBits bits = .error .atLeaf := by
  refine ⟨fun h => ?_, fun hx => failsWith_of_exec (exec_unpackByte_atLeaf hm hb hx)⟩
  unfold FailsWith at h
  cases hx : s.hbpu.unpackBits bits with
  | error e =>
    cases e with
    | atLeaf => rfl
    | unwritten i =>
      rw [exec_unpackByte_unwritten hm hb hx] at h
      cases h
  | ok x =>
    cases exec_unpackByte_keepsMode hm hb hx h

end

/-! ## The unpack commands, case by case (43_unpack_decode.md R177 to R179, R182) -/

/-- Settles O40: outside IDLE the mode check rejects, with OUT not empty NOT_DRAINED, and else the session opens. -/
theorem unpackStartOpensTheSession : Obligations.UnpackStartOpensTheSession := by
  refine fun s m => ⟨rfl, rfl, fun hm => rejectsWith_badMode (beq_eq_false_iff_ne.2 hm),
    fun hm ho => rejectsWith_of_exec ?_, fun hm ho => ?_⟩
  · rw [exec_unpackStart m s hm, if_pos (mt List.length_eq_zero_iff.1 ho)]
  · rw [exec_unpackStart m s hm, if_neg (by simp [ho]), commit_eq]

/-- Settles O41: the checks of UNPACK_BYTE in their order; in RAW mode the outputs are the symbol bytes of the payload
(`unpackBits_raw`), which leave WALK and PARTIAL as they are. -/
theorem unpackByteRaw : Obligations.UnpackByteRaw := by
  refine fun s b => ⟨decode_encode_of_isCommand (i := .unpackByte b) rfl,
    fun hm => rejectsWith_badMode (beq_eq_false_iff_ne.2 hm),
    fun hm hb => failsWith_of_exec (exec_unpackByte_malformed hm hb), fun bits dropped hm hu hb => ?_⟩
  have hx := Hbpu.unpackBits_raw hu bits
  refine ⟨fun hf => rejectsWith_of_exec (exec_unpackByte_outFull hm hb hx ?_), fun hf => ?_⟩
  · rwa [List.length_map]
  · exact exec_unpackByte_accept hm hb hx (by rwa [List.length_map])

/-- Settles O42: the cases of how the walk over the payload ends, whose characters `walkBits_out_ascii` bounds. -/
theorem unpackByteDecode : Obligations.UnpackByteDecode := by
  intro s b bits dropped hm hu hb
  rw [← Hbpu.unpackBits_decode hu]
  refine ⟨fun hx => failsWith_of_exec (exec_unpackByte_atLeaf hm hb hx),
    fun i hx => exec_unpackByte_unwritten hm hb hx, fun x hx => ⟨Hbpu.unpackBits_length hx, ?_,
      fun hf => rejectsWith_of_exec (exec_unpackByte_outFull hm hb hx hf), exec_unpackByte_accept hm hb hx⟩⟩
  rw [Hbpu.unpackBits_decode hu] at hx
  exact walkBits_out_ascii bits hx nofun

/-- Settles O43: the mode check, and the one check of UNPACK_END. -/
theorem unpackEndReportsTruncation : Obligations.UnpackEndReportsTruncation := by
  refine fun s => ⟨rfl, fun hm => rejectsWith_badMode (beq_eq_false_iff_ne.2 hm),
    fun hm hf => failsWith_of_exec ?_, fun hm hf => ?_⟩
  · rw [exec_unpackEnd s hm, if_pos hf]
  · have htrunc : (if s.hbpu.umode = .decode ∧ s.hbpu.inCode = true then true else s.hbpu.trunc) =
        ((s.hbpu.umode == .decode && s.hbpu.inCode) || s.hbpu.trunc) := by
      cases s.hbpu.umode <;> cases s.hbpu.inCode <;> rfl
    rw [exec_unpackEnd s hm, if_neg (by simp [hf]), commit_eq, htrunc]

/-- Settles O45: under a leaf root no code is in progress, so the walk stands at that leaf; under an internal root it
stands at an internal node and stays so (`walkBits_ne_atLeaf`). -/
theorem treeFaultExactlyUnderALeafRoot : Obligations.TreeFaultExactlyUnderALeafRoot := by
  intro s b x xs dropped n hs hm hu hb hn
  rw [failsWith_treeFault_iff hm hb, Hbpu.unpackBits_decode hu]
  constructor
  · intro hfault
    by_contra hl
    have hroot : Inside s.hbpu.tree s.hbpu.root := ⟨n, hn, Bool.eq_false_iff.2 hl⟩
    have hwalk : Inside s.hbpu.tree s.hbpu.walk := by
      cases hi : s.hbpu.inCode with
      | true => exact hs.walkInside hm hi
      | false => rwa [hs.walkAtRoot hm hi]
    exact walkBits_ne_atLeaf hroot (x :: xs) hwalk hfault
  · intro hl
    have hi : s.hbpu.inCode = false := by
      by_contra hi
      obtain ⟨n', hn', hl'⟩ := hs.rootInside hm (Bool.eq_true_of_not_eq_false hi)
      rw [hn] at hn'
      cases hn'
      simp [hl] at hl'
    have hwalk : s.hbpu.tree.read s.hbpu.walk = some n := by rwa [hs.walkAtRoot hm hi]
    rw [walkBits, walkBit_atLeaf (x := { node := s.hbpu.walk, inCode := s.hbpu.inCode, out := [] }) hwalk hl]

/-! ## unpack after pack (43_unpack_decode.md R171, R185) -/

theorem afterFirstOne_append {bs : List Bool} (h : true ∈ bs) (cs : List Bool) :
    afterFirstOne (bs ++ cs) = afterFirstOne bs ++ cs := by
  induction bs with
  | nil => cases h
  | cons b bs ih =>
    cases b with
    | true => rfl
    | false => exact ih (by simpa using h)

theorem afterFirstOne_paddedBits (p : List Bool) : afterFirstOne (paddedBits p) = p := by
  unfold paddedBits
  induction 8 - p.length % 8 - 1 with
  | zero => rfl
  | succ k ih => rw [List.replicate_succ]; exact ih

theorem true_mem_bits8 {b : Byte} (h : b ≠ 0) : true ∈ bits8 b := by revert b; decide

theorem unpackedBits_cons {b : Byte} (hb : b ≠ 0) (pad : PadMode) (rest : List Byte) :
    unpackedBits pad (b :: rest) = some (afterFirstOne (bits8 b) ++ rest.flatMap bits8) := if_neg hb

/-- When the first byte is not 0x00, unpack gives what stands after the first '1' of the whole file. -/
theorem unpackedBits_eq_afterFirstOne {f : List Byte} (hne : f ≠ []) (h0 : f.head? ≠ some 0) (pad : PadMode) :
    unpackedBits pad f = some (afterFirstOne (f.flatMap bits8)) := by
  cases f with
  | nil => exact absurd rfl hne
  | cons b rest =>
    have hb : b ≠ 0 := fun e => h0 (by rw [e]; rfl)
    rw [unpackedBits_cons hb, List.flatMap_cons, afterFirstOne_append (true_mem_bits8 hb)]

/-- Settles O48: a packed file has a first byte other than 0x00 and spells the padded string, whose first '1' is the
padding's. -/
theorem unpackOfPackIsThePayload : Obligations.UnpackOfPackIsThePayload := by
  intro pad p
  obtain ⟨hlen, hbits⟩ := packedFile_spec p
  have hne : packedFile p ≠ [] := fun e => by simp [e] at hlen
  rw [unpackedBits_eq_afterFirstOne hne (packedFile_head_ne_zero p), hbits, afterFirstOne_paddedBits]

/-! ## The source's Decode walk (43_unpack_decode.md R175, R181, R185) -/

/-- From an internal node, a path down to a leaf emits that leaf's character and goes on from the root. -/
theorem sourceDecode_path {root l r : HuffTree} {path : List Bool} {c : BitVec 7}
    (h : (HuffTree.node l r).leafAt path = some c) (inside : Bool) (rest : List Bool) :
    sourceDecode root (.node l r) inside (path ++ rest) =
      (c.setWidth 8 :: (sourceDecode root root false rest).1, (sourceDecode root root false rest).2) := by
  induction path generalizing l r inside with
  | nil => cases h
  | cons b path ih =>
    have hchild : (if b then r else l).leafAt path = some c := by
      rw [HuffTree.leafAt] at h
      cases b <;> exact h
    rw [List.cons_append, sourceDecode]
    cases hk : (if b then r else l) with
    | leaf d =>
      rw [hk] at hchild
      cases path with
      | nil => cases hchild; rfl
      | cons => cases hchild
    | node l' r' => rw [hk] at hchild; exact ih hchild true

/-- Settles O49: each code brings the walk back to the root with its character (`sourceDecode_path`). -/
theorem decodeOfCodesIsTheText : Obligations.DecodeOfCodesIsTheText := by
  intro l r text htext
  induction text with
  | nil => rfl
  | cons e text ih =>
    obtain ⟨he, hrest⟩ := List.forall_mem_cons.1 htext
    rw [List.flatMap_cons, sourceDecode_path he, ih hrest, List.map_cons]

end Sys2Proof.Machine

namespace Sys2Proof.Machine

/-! ## The payload of the bytes fed so far (43_unpack_decode.md R171 to R173) -/

/-- `unpack` under the reading of a first byte 0x00 that MALPAD tells. -/
def unpackedAs (malpad : Bool) (fed : List Byte) : Option (List Bool) :=
  unpackedBits (if malpad then .compat else .strict) fed

/-- One more byte adds its eight bits to what unpack gives. -/
theorem unpackedBits_append {pad : PadMode} {fed : List Byte} {bits : List Bool} (h : unpackedBits pad fed = some bits)
    (b : Byte) : unpackedBits pad (fed ++ [b]) = some (bits ++ bits8 b) := by
  cases fed with
  | nil => cases h
  | cons b0 rest =>
    by_cases hb : b0 = 0
    · subst hb
      cases pad with
      | strict => cases h
      | compat =>
        cases h
        simp [unpackedBits]
    · rw [unpackedBits_cons hb] at h
      cases h
      rw [List.cons_append, unpackedBits_cons hb]
      simp

/-- The bits `bits` are the payload of the bytes fed to a session, with its FIRST and MALPAD. -/
inductive FedPayload : (first malpad : Bool) → List Byte → List Bool → Prop
  | fresh : FedPayload true false [] []
  | begun {malpad : Bool} {fed : List Byte} {bits : List Bool} (hbits : unpackedAs malpad fed = some bits)
      (hmal : malpad = true ↔ fed.head? = some 0) : FedPayload false malpad fed bits

/-- A byte that ByteBits reads adds its payload bits. -/
theorem FedPayload.feed {first malpad dropped : Bool} {fed : List Byte} {bits more : List Bool} {p : PadMode} {b : Byte}
    (h : FedPayload first malpad fed bits) (hb : byteBits first p b = some (more, dropped)) :
    FedPayload false (malpad || dropped) (fed ++ [b]) (bits ++ more) := by
  cases h with
  | fresh =>
    by_cases h0 : b = 0
    · subst h0
      cases p with
      | strict => cases hb
      | compat => cases hb; exact .begun rfl (by simp)
    · rw [byteBits_first h0] at hb
      cases hb
      obtain ⟨-, -, -, hafter⟩ := highestOne_spec b h0
      refine .begun ?_ ⟨nofun, fun e => absurd (Option.some.inj e) h0⟩
      rw [hafter, unpackedAs, List.nil_append, unpackedBits_cons h0]
      simp
  | begun hbits hmal =>
    rw [byteBits_later] at hb
    cases hb
    have hne : fed ≠ [] := by rintro rfl; cases hbits
    rw [Bool.or_false]
    exact .begun (unpackedBits_append hbits b) (by rwa [List.head?_append_of_ne_nil _ hne])

/-! ## The output of two payloads one after the other -/

/-- The output of more bits, from where the output `x` of the bits before left the session. -/
theorem Hbpu.unpackBits_append {o h : Hbpu} {bits more : List Bool} {x y : Walk} (hu : h.umode = o.umode)
    (ht : h.tree = o.tree) (hr : h.root = o.root) (hw : h.walk = x.node) (hi : h.inCode = x.inCode)
    (hx : o.unpackBits bits = .ok x) (hy : h.unpackBits more = .ok y) :
    o.unpackBits (bits ++ more) = .ok (y.after x.out) := by
  cases ho : o.umode with
  | raw =>
    rw [Hbpu.unpackBits_raw ho] at hx
    rw [Hbpu.unpackBits_raw (hu.trans ho), hw, hi] at hy
    cases hx
    cases hy
    rw [Hbpu.unpackBits_raw ho, List.map_append]
    rfl
  | decode =>
    rw [Hbpu.unpackBits_decode ho] at hx
    rw [Hbpu.unpackBits_decode (hu.trans ho), ht, hr, hw, hi] at hy
    rw [Hbpu.unpackBits_decode ho, walkBits_append, hx]
    simpa [Walk.after] using walkBits_after more x.out hy

/-! ## How an unpack session opens and ends (43_unpack_decode.md R177, R179) -/

/-- The HBPU as UNPACK_START leaves it. -/
def Hbpu.openUnpack (m : UMode) (h : Hbpu) : Hbpu :=
  { h with
    mode := .unpack, umode := m, first := true, walk := h.root, inCode := false
    done := false, trunc := false, malpad := false }

/-- How UNPACK_START reaches UNPACK. -/
theorem unpackStart_commits {m : UMode} {s t : State} (h : exec (.unpackStart m) s = .next t)
    (hs : s.hbpu.mode = .idle) (ht : t.hbpu.mode = .unpack) :
    s.hbpu.out = [] ∧ t = { s with hbpu := s.hbpu.openUnpack m } := by
  have he : Effect s (.unpackStart m) t := exec_effect (.unpackStart m) s t h
  have hne : t.hbpu.mode ≠ s.hbpu.mode := by simp [hs, ht]
  cases he with
  | unpackStart m hm ho => exact ⟨ho, rfl⟩
  | quiet | reject => exact absurd rfl hne
  | push j bs hm => simp [hs] at hm
  | fail => cases ht

/-- How UNPACK_END comes to IDLE from another mode. -/
theorem unpackEnd_commits {s t : State} (h : exec .unpackEnd s = .next t) (hs : s.hbpu.mode ≠ .idle)
    (ht : t.hbpu.mode = .idle) :
    s.hbpu.mode = .unpack ∧ s.hbpu.first = false ∧
      t = { s with hbpu :=
        { s.hbpu with
          trunc := if s.hbpu.umode = .decode ∧ s.hbpu.inCode = true then true else s.hbpu.trunc
          mode := .idle, done := true } } := by
  have he : Effect s .unpackEnd t := exec_effect .unpackEnd s t h
  have hne : t.hbpu.mode ≠ s.hbpu.mode := by rw [ht]; exact hs.symm
  cases he with
  | unpackEnd hm hf => exact ⟨hm, hf, rfl⟩
  | quiet | reject => exact absurd rfl hne
  | push j bs => exact absurd (Hbpu.pushBits_mode bs s.hbpu) hne
  | fail => cases ht

/-! ## An unpack session (43_unpack_decode.md R180, R181) -/

/-- The host's account has a byte that UNPACK_BYTE accepts. -/
theorem fedBy_accepted {s : State} {b : Byte} {bits : List Bool} {dropped : Bool} {x : Walk}
    (hm : s.hbpu.mode = .unpack) (hb : byteBits s.hbpu.first s.hbpu.padmode b = some (bits, dropped))
    (hx : s.hbpu.unpackBits bits = .ok x) (ho : x.out.length ≤ s.outRoom) : fedBy (.unpackByte b) s = [b] := by
  have ha : acceptsByte b s = true := by simp [acceptsByte, hm, hb, hx, ho]
  exact if_pos ha

/-- Only an accepted UNPACK_BYTE feeds a byte. -/
theorem fedBy_eq_nil {j : Instr} {s : State} (h : ∀ b, j = .unpackByte b → acceptsByte b s = false) :
    fedBy j s = [] := by
  unfold fedBy
  split
  · next b => rw [h b rfl]; rfl
  · rfl

/-- An unpack session that opened in the HBPU state `o` and has met no fatal error: the bytes drained and those in OUT
are the output of the payload of the bytes fed, and WALK and PARTIAL stand where that payload ends. -/
structure UnpackInProgress (o : Hbpu) (x : Session) : Prop where
  inUnpack : x.st.hbpu.mode = .unpack
  umode : x.st.hbpu.umode = o.umode
  tree : x.st.hbpu.tree = o.tree
  root : x.st.hbpu.root = o.root
  trunc : x.st.hbpu.trunc = false
  output : ∃ bits, FedPayload x.st.hbpu.first x.st.hbpu.malpad x.fed bits ∧
    o.unpackBits bits =
      .ok { node := x.st.hbpu.walk, inCode := x.st.hbpu.inCode, out := x.drained ++ x.st.hbpu.out }

theorem unpackInProgress_openUnpack {s : State} (m : UMode) (ho : s.hbpu.out = []) :
    UnpackInProgress (s.hbpu.openUnpack m)
      { st := { s with hbpu := s.hbpu.openUnpack m }, pushed := [], fed := [], drained := [] } where
  inUnpack := rfl
  umode := rfl
  tree := rfl
  root := rfl
  trunc := rfl
  output := ⟨[], .fresh, by
    rw [Hbpu.unpackBits_nil, show (s.hbpu.openUnpack m).out = [] from ho]; rfl⟩

section

variable {o : Hbpu} {x : Session} {j : Instr} {t : State}

/-- An effect that feeds no byte, changes no more than PADMODE, ARG, ERR and OUT, and takes out of OUT only what goes to
the host. -/
theorem UnpackInProgress.after_unfed (p : UnpackInProgress o x) {pad : PadMode} {a : Word} {e : ErrCode}
    {out : List Byte} (ht : t.hbpu = { x.st.hbpu with padmode := pad, arg := a, err := e, out := out })
    (hout : drainedBy j x.st ++ out = x.st.hbpu.out) (hf : fedBy j x.st = []) :
    UnpackInProgress o (x.after j t) := by
  cases t
  cases ht
  refine { p with output := ?_ }
  obtain ⟨bits, hpay, hbits⟩ := p.output
  refine ⟨bits, ?_, ?_⟩
  · simp only [Session.after, hf, List.append_nil]
    exact hpay
  · simp only [Session.after, List.append_assoc, hout]
    exact hbits

/-- An accepted byte adds its payload, and its output is appended to OUT. -/
theorem UnpackInProgress.after_byte (p : UnpackInProgress o x) {b : Byte} {more : List Bool} {dropped : Bool} {y : Walk}
    (hb : byteBits x.st.hbpu.first x.st.hbpu.padmode b = some (more, dropped))
    (hy : x.st.hbpu.unpackBits more = .ok y) (hroom : y.out.length ≤ x.st.outRoom) :
    UnpackInProgress o (x.after (.unpackByte b) { x.st with hbpu := x.st.hbpu.acceptByte y dropped }) := by
  refine { p with output := ?_ }
  obtain ⟨bits, hpay, hbits⟩ := p.output
  refine ⟨bits ++ more, ?_, ?_⟩
  · simp only [Session.after, fedBy_accepted p.inUnpack hb hy hroom]
    exact hpay.feed hb
  · rw [Hbpu.unpackBits_append p.umode p.tree p.root rfl rfl hbits hy]
    simp [Session.after, Walk.after, drainedBy]

/-- Where an unpack session stands that nothing has abandoned or ended: in progress, or failed. -/
def UnpackOpen (o : Hbpu) (x : Session) : Prop := x.st.hbpu.mode = .error ∨ UnpackInProgress o x

theorem UnpackInProgress.after_effect (p : UnpackInProgress o x) (h : Effect x.st j t) (hj : KeepsSession j) :
    UnpackOpen o (x.after j t) := by
  have hm := p.inUnpack
  cases h with
  | quiet j rs hq ho =>
    refine .inr (p.after_unfed rfl ?_ (fedBy_eq_nil ?_))
    · rw [drainedBy_eq_nil ho]; rfl
    · rintro b rfl
      rcases hq with hq | hq <;> cases hq
  | pop b rest w ho =>
    refine .inr (p.after_unfed rfl ?_ rfl)
    simp [drainedBy, ho]
  | setPad | setArg | treeRead => exact .inr (p.after_unfed rfl rfl rfl)
  | reject j c hno hc hn ha =>
    refine .inr (p.after_unfed rfl ?_ (fedBy_eq_nil ha))
    rw [drainedBy_eq_nil (by rintro rfl; exact absurd rfl (hno _))]; rfl
  | unpackByte b bits dropped y hu hb hy hroom => exact .inr (p.after_byte hb hy hroom)
  | fail => exact .inl rfl
  | softReset => exact absurd rfl hj.ne_softReset
  | abort => exact absurd rfl hj.ne_abort
  | packEnd => exact absurd rfl hj.ne_packEnd
  | unpackEnd => exact absurd rfl hj.ne_unpackEnd
  | treeWrite i hi | setRoot i hi | packStart hi | unpackStart u hi | push j bs hi => simp [hm] at hi

theorem UnpackOpen.after_effect (p : UnpackOpen o x) (h : Effect x.st j t) (hj : KeepsSession j) :
    UnpackOpen o (x.after j t) := by
  rcases p with herr | hp
  · exact .inl (h.keepsErrorMode herr hj)
  · exact hp.after_effect h hj

theorem UnpackOpen.mode_ne_idle (p : UnpackOpen o x) : x.st.hbpu.mode ≠ .idle := by
  rcases p with herr | hp
  · simp [herr]
  · simp [hp.inUnpack]

end

/-- What a whole session leaves, in either output mode: with the payload `bits` of the bytes fed and its output `y`, the
bytes drained and those in OUT are those of `y`, and TRUNC tells of a walk that `y` leaves inside a code. -/
theorem unpackSession_output {m : UMode} {s t u : State} {x : Session} {is : List Instr}
    (hstart : exec (.unpackStart m) s = .next t) (hs : s.hbpu.mode = .idle) (ht : t.hbpu.mode = .unpack)
    (hstay : ∀ i ∈ is, staysInSession i = true)
    (hrun : Session.run is { st := t, pushed := [], fed := [], drained := [] } = some x)
    (hend : exec .unpackEnd x.st = .next u) (hu : u.hbpu.mode = .idle) :
    ∃ bits y, unpackedAs u.hbpu.malpad x.fed = some bits ∧ (u.hbpu.malpad = true ↔ x.fed.head? = some 0) ∧
      (s.hbpu.openUnpack m).unpackBits bits = .ok y ∧ x.drained ++ u.hbpu.out = y.out ∧
      u.hbpu.trunc = (m == .decode && y.inCode) := by
  obtain ⟨ho, rfl⟩ := unpackStart_commits hstart hs ht
  have hx : UnpackOpen (s.hbpu.openUnpack m) x :=
    Session.run_keeps (fun _ _ _ h hj p => UnpackOpen.after_effect p h hj) hstay hrun
      (.inr (unpackInProgress_openUnpack m ho))
  obtain ⟨hm, hf, rfl⟩ := unpackEnd_commits hend hx.mode_ne_idle hu
  rcases hx with herr | p
  · simp [herr] at hm
  · obtain ⟨bits, hpay, hbits⟩ := p.output
    rw [hf] at hpay
    cases hpay with
    | begun hfed hmal =>
      refine ⟨bits, _, hfed, hmal, hbits, rfl, ?_⟩
      have hum : x.st.hbpu.umode = m := p.umode
      simp only [hum, p.trunc]
      cases m <;> cases x.st.hbpu.inCode <;> rfl

/-- Settles O46: in RAW mode the output of the payload is its symbol bytes, and no walk is left inside a code. -/
theorem rawSessionGivesTheSymbols : Obligations.RawSessionGivesTheSymbols := by
  intro s t u x is hstart hs ht hstay hrun hend hu
  obtain ⟨bits, y, hfed, hmal, hy, hout, htrunc⟩ := unpackSession_output hstart hs ht hstay hrun hend hu
  rw [Hbpu.unpackBits_raw rfl] at hy
  cases hy
  exact ⟨bits, hfed, hout, hmal, htrunc⟩

/-- WalkBit over a tree RAM that holds a decode tree is the source's walk over that tree: each bit goes to the child in
both, which is a leaf or an internal node in both. -/
theorem walkBits_eq_sourceDecode {m : Memory} {i : Index} {L R : HuffTree} (hroot : (HuffTree.node L R).heldAt m i)
    (bits : List Bool) {l r : HuffTree} {x y : Walk} (hx : (HuffTree.node l r).heldAt m x.node)
    (h : walkBits m i bits x = .ok y) :
    y.out = x.out ++ (sourceDecode (.node L R) (.node l r) x.inCode bits).1 ∧
      y.inCode = (sourceDecode (.node L R) (.node l r) x.inCode bits).2 := by
  induction bits generalizing l r x with
  | nil =>
    cases h
    exact ⟨(List.append_nil _).symm, rfl⟩
  | cons b bits ih =>
    rw [walkBits] at h
    split at h
    · cases h
    · next z hz =>
      obtain ⟨n, c, hn, -, hc, hcase⟩ := walkBit_ok m i b x z hz
      obtain ⟨w, hw, -, hleft, hright⟩ := hx
      obtain rfl : w = n := Option.some.inj (hw.symm.trans hn)
      have hchild : (if b then r else l).heldAt m (nodeChild w b) := by
        cases b
        · exact hleft
        · exact hright
      rw [sourceDecode]
      cases hk : (if b then r else l) with
      | leaf d =>
        rw [hk] at hchild
        obtain ⟨v, hv, hvl, rfl⟩ := hchild
        obtain rfl : v = c := Option.some.inj (hv.symm.trans hc)
        rcases hcase with ⟨-, rfl⟩ | ⟨hcl, -⟩
        · obtain ⟨hout, hin⟩ := ih hroot h
          exact ⟨by rw [hout, List.append_assoc]; rfl, hin⟩
        · simp [hvl] at hcl
      | node l' r' =>
        rw [hk] at hchild
        rcases hcase with ⟨hcl, -⟩ | ⟨-, rfl⟩
        · obtain ⟨v, hv, hvl, -⟩ := hchild
          obtain rfl : v = c := Option.some.inj (hv.symm.trans hc)
          simp [hcl] at hvl
        · exact ih hchild h

/-- Settles O47: in DECODE mode the output of the payload is the walk over the tree RAM, which is the source's
(`walkBits_eq_sourceDecode`). -/
theorem decodeSessionGivesTheText : Obligations.DecodeSessionGivesTheText := by
  intro s t u x is l r hheld hstart hs ht hstay hrun hend hu
  obtain ⟨bits, y, hfed, -, hy, hout, htrunc⟩ := unpackSession_output hstart hs ht hstay hrun hend hu
  rw [Hbpu.unpackBits_decode rfl] at hy
  obtain ⟨hchars, hin⟩ := walkBits_eq_sourceDecode hheld bits (by exact hheld) hy
  exact ⟨bits, hfed, hout.trans hchars, htrunc.trans hin⟩

end Sys2Proof.Machine

namespace Sys2Proof.Machine

/-! ## ERR (60_exceptions.md R214, R215, R219): who writes it, and that ERROR keeps the fatal code -/

/-- An effect that changes ERR clears the session, or is a rejection that finds ERR = 0, or is a fatal error; each says
the whole next state. -/
theorem Effect.err_change {s t : State} {j : Instr} (h : Effect s j t) (hne : t.hbpu.err ≠ s.hbpu.err) :
    ((j = .abort ∨ j = .softReset) ∧ t.hbpu.err = .none) ∨
    (t.hbpu.err.fatal = false ∧ s.hbpu.err = .none ∧ t = { s with hbpu := { s.hbpu with err := t.hbpu.err } }) ∨
    (t.hbpu.err.fatal = true ∧ (s.hbpu.mode = .pack ∨ s.hbpu.mode = .unpack) ∧
      t = { s with hbpu := { s.hbpu with err := t.hbpu.err, mode := .error, out := [] } }) := by
  cases h with
  | abort => exact .inl ⟨.inl rfl, rfl⟩
  | softReset => exact .inl ⟨.inr rfl, rfl⟩
  | reject j c hj hc =>
    have he : s.hbpu.err = .none := by
      by_contra he
      exact hne (if_neg he)
    refine .inr (.inl ⟨?_, he, rfl⟩)
    simpa [he] using hc
  | fail j c hj hc hm => exact .inr (.inr ⟨hc, hm, rfl⟩)
  | packStart => exact absurd (Hbpu.openPack_err s.hbpu) hne
  | push j bs => exact absurd (Hbpu.pushBits_err bs s.hbpu) hne
  | quiet | pop | setPad | setArg | treeWrite | treeRead | setRoot | packEnd | unpackStart | unpackByte | unpackEnd =>
    exact absurd rfl hne

/-- Settles O50: every next state is an effect's, and WR CMD counts as the command it runs. -/
theorem errorsChangeNothingElse : Obligations.ErrorsChangeNothingElse := fun i s t h hne =>
  (exec_effect i s t h).err_change hne

/-- ERROR accepts four commands only (30_encoding.md R87). -/
theorem legalIn_error_of_command {i : Instr} (hc : isCommand i = true) (hn : i ≠ .nop) (hs : i ≠ .softReset)
    (ha : i ≠ .abort) (ht : ∀ idx, i ≠ .treeRead idx) : legalIn i .error = false := by
  cases i with
  | nop => exact absurd rfl hn
  | softReset => exact absurd rfl hs
  | abort => exact absurd rfl ha
  | treeRead idx => exact absurd rfl (ht idx)
  | packStart | packBits | packSym | packEnd | unpackStart | unpackByte | unpackEnd | treeWrite | setRoot => rfl
  | _ => cases hc

/-- In ERROR no rejection changes anything: ERR holds the fatal code (60_exceptions.md R219). -/
theorem Inv.rejected_of_error {s : State} (h : Inv s) (hm : s.hbpu.mode = .error) (c : ErrCode) :
    rejected s c = .next s := by
  have he : s.hbpu.err ≠ .none := fun e => by simpa [e, ErrCode.fatal] using h.errorFatal hm
  rw [rejected, Hbpu.reject_of_err _ _ he, commit]

/-- Settles O52: the command is outside its modes, and its BAD_MODE finds ERR taken. -/
theorem errorModeKeepsTheFatalCode : Obligations.ErrorModeKeepsTheFatalCode := by
  intro i s hi hm hc hn hs ha ht
  have hl : legalIn i s.hbpu.mode = false := hm ▸ legalIn_error_of_command hc hn hs ha ht
  exact (exec_badMode i s hl).trans (hi.rejected_of_error hm .badMode)

end Sys2Proof.Machine

namespace Sys2Proof.Machine

/-! ## The room of an empty OUT (70_reset_and_hazards.md R247)

OUT_DEPTH is at least 8 (00_scope.md R6), and no command makes more than eight bytes at once. -/

/-- A push of at most 32 bits onto at most seven waiting ones completes at most four bytes (42_pack.md R145). -/
theorem Hbpu.bytesMade_le_four (h : Hbpu) {n : Nat} (hn : n ≤ 32) : h.bytesMade n ≤ 4 := by
  have hacc := h.accn.isLt
  unfold Hbpu.bytesMade
  omega

/-- A file byte makes at most eight output bytes, one for each payload bit (43_unpack_decode.md R178). -/
theorem Hbpu.unpackBits_out_le_eight {h : Hbpu} {first dropped : Bool} {pad : PadMode} {b : Byte} {bits : List Bool}
    {x : Walk} (hb : byteBits first pad b = some (bits, dropped)) (hx : h.unpackBits bits = .ok x) :
    x.out.length ≤ 8 := (Hbpu.unpackBits_length hx).trans (byteBits_length hb)

section

variable {s : State} (hl : s.cfg.legal) (ho : s.hbpu.out = [])

include hl ho

theorem eight_le_outRoom : 8 ≤ s.outRoom := by
  obtain ⟨hd, -⟩ := hl
  simpa [State.outRoom, ho] using hd

theorem bytesMade_le_outRoom {n : Nat} (hn : n ≤ 32) : s.hbpu.bytesMade n ≤ s.outRoom := by
  have hroom := eight_le_outRoom hl ho
  have hmade := s.hbpu.bytesMade_le_four hn
  omega

theorem unpackBits_out_le_outRoom {first dropped : Bool} {pad : PadMode} {b : Byte} {bits : List Bool} {x : Walk}
    (hb : byteBits first pad b = some (bits, dropped)) (hx : s.hbpu.unpackBits bits = .ok x) :
    x.out.length ≤ s.outRoom := (Hbpu.unpackBits_out_le_eight hb hx).trans (eight_le_outRoom hl ho)

/-- Only a rejection could write OUT_FULL, and it would have found less room than an empty OUT has. -/
theorem Effect.err_outFull {t : State} {j : Instr} (h : Effect s j t) (he : t.hbpu.err = .outFull) :
    s.hbpu.err = .outFull := by
  cases h with
  | reject j c hj hc hn ha hfull =>
    have hne : c ≠ .outFull := by
      intro e
      rcases hfull e with ⟨bs, hlen, hlt⟩ | ⟨first, b, bits, dropped, x, hb, hx, hlt⟩
      · exact Nat.not_lt.2 (bytesMade_le_outRoom hl ho hlen) hlt
      · exact Nat.not_lt.2 (unpackBits_out_le_outRoom hl ho hb hx) hlt
    dsimp only at he
    split at he
    · exact absurd he hne
    · exact he
  | fail j c hj hc => cases he; cases hc
  | softReset | abort => cases he
  | packStart => exact (Hbpu.openPack_err s.hbpu).symm.trans he
  | push j bs => exact (Hbpu.pushBits_err bs s.hbpu).symm.trans he
  | quiet | pop | setPad | setArg | treeWrite | treeRead | setRoot | packEnd | unpackStart | unpackByte | unpackEnd =>
    exact he

theorem exec_packSym_of_out_nil {y : Byte} (hm : s.hbpu.mode = .pack) (hy : y = 0x30 ∨ y = 0x31)
    (hr : s.hbpu.remain ≠ 0) : exec (.packSym y) s = commit s (s.hbpu.pushBit (y == 0x31)) := by
  have hroom : s.hbpu.bytesMade 1 ≤ s.outRoom := bytesMade_le_outRoom hl ho (by decide)
  rw [exec_packSym_symbol hm (symbolBit_eq_some_iff.2 ⟨hy, rfl⟩), if_neg hr, if_neg (Nat.not_lt.2 hroom)]

/-- An UNPACK_BYTE whose output can be computed finds room for it, and the output is then all that OUT holds. -/
theorem exec_unpackByte_of_out_nil {b : Byte} {bits : List Bool} {dropped : Bool} {x : Walk}
    (hm : s.hbpu.mode = .unpack) (hb : byteBits s.hbpu.first s.hbpu.padmode b = some (bits, dropped))
    (hx : s.hbpu.unpackBits bits = .ok x) :
    exec (.unpackByte b) s = commit s
      { s.hbpu with
        out := x.out, walk := x.node, inCode := x.inCode, first := false, malpad := s.hbpu.malpad || dropped } := by
  rw [exec_unpackByte_accept hm hb hx (unpackBits_out_le_outRoom hl ho hb hx), Hbpu.acceptByte, ho, List.nil_append]

end

/-- Settles O53: an empty OUT has at least eight free places, and PACK_BITS, PACK_SYM and UNPACK_BYTE need at most
four, one and eight. -/
theorem emptyOutIsNeverFull : Obligations.EmptyOutIsNeverFull := by
  refine fun s hl ho => ⟨fun i t h he => (exec_effect i s t h).err_outFull hl ho he, fun n hm h1 h2 hr => ?_,
    fun y hm hy hr => exec_packSym_of_out_nil hl ho hm hy hr,
    fun b bits dropped hm hb => ⟨fun hu => ?_, fun x hu hx => ?_⟩⟩
  · rw [exec_packBits_accept hm h1 h2 hr (bytesMade_le_outRoom hl ho h2), State.pushBits, Hbpu.pushBits_bitsBelow]
  · exact exec_unpackByte_of_out_nil hl ho hm hb (Hbpu.unpackBits_raw hu bits)
  · exact exec_unpackByte_of_out_nil hl ho hm hb ((Hbpu.unpackBits_decode hu bits).trans hx)

/-! ## The tree outside IDLE (70_reset_and_hazards.md R248) -/

section

variable {s t : State} {j : Instr} (h : Effect s j t) (hm : s.hbpu.mode ≠ .idle)

include h hm

/-- TREE is written by TREE_WRITE alone, which is accepted in IDLE alone. -/
theorem Effect.tree_eq : t.hbpu.tree = s.hbpu.tree := by
  cases h with
  | treeWrite i hi => exact absurd hi hm
  | packStart => exact Hbpu.openPack_tree _
  | push j bs => exact Hbpu.pushBits_tree bs _
  | quiet | pop | setPad | setArg | softReset | abort | treeRead | setRoot | packEnd | unpackStart | unpackByte
  | unpackEnd | reject | fail => rfl

/-- ROOT is written by SOFT_RESET and by SET_ROOT, which is accepted in IDLE alone. -/
theorem Effect.root_eq (hj : j ≠ .softReset) : t.hbpu.root = s.hbpu.root := by
  cases h with
  | setRoot i hi => exact absurd hi hm
  | softReset => exact absurd rfl hj
  | packStart => exact Hbpu.openPack_root _
  | push j bs => exact Hbpu.pushBits_root bs _
  | quiet | pop | setPad | setArg | abort | treeWrite | treeRead | packEnd | unpackStart | unpackByte | unpackEnd
  | reject | fail => rfl

end

/-- Settles O54: the two writers are outside their one mode, and the effects of the other instructions keep TREE and,
but for SOFT_RESET, ROOT. -/
theorem treeIsFixedOutsideIdle : Obligations.TreeIsFixedOutsideIdle := fun s hm =>
  ⟨fun _ => ⟨rejectsWith_badMode (beq_eq_false_iff_ne.2 hm), rejectsWith_badMode (beq_eq_false_iff_ne.2 hm)⟩,
    fun i t h => have he := exec_effect i s t h
    ⟨he.tree_eq hm, he.root_eq hm⟩⟩

/-! ## The reset input (70_reset_and_hazards.md R240) -/

/-- Settles O5: the reset input is served by `takeReset`, which puts `Hbpu.reset` in place of the HBPU. -/
theorem resetInputSetsResetValues : Obligations.ResetInputSetsResetValues := fun _ _ hb => step_reset hb

end Sys2Proof.Machine
